-- ==== Sys2Proof/Word.lean ====
section
/-! DEFINITION. The word types of the core: 8-bit data (R18), 16-bit `I`, `PC` and instruction word
(R7, R66), and the operand fields of an instruction word (R69). -/

namespace Sys2Proof

/-- A byte: a general register, a timer, a memory byte (R9, R18). Unsigned. -/
abbrev Byte := BitVec 8

/-- A 16-bit word: `I`, `PC`, a return address, an instruction word (R7, R66). Unsigned. -/
abbrev Word := BitVec 16

/-- A register number, the 4-bit field `x` or `y` of an instruction word (R21, R69). -/
abbrev RegIdx := BitVec 4

/-- A key code 0..15 (R86, R153). -/
abbrev Key := BitVec 4

/-- The 12-bit literal `nnn` (R69, R71). -/
abbrev Lit12 := BitVec 12

/-- The 4-bit row count `n` of `Dxyn` (R69). -/
abbrev RowCount := BitVec 4

end Sys2Proof
end

