-- ==== Sys2Proof/Syntax.lean ====
section
/-! DEFINITION. The instruction set: one constructor per row of spec/opcode_table.json (R2, R72), with the operand fields
of R69, R70 and R71. -/

namespace Sys2Proof

/-- The 34 instructions of the dispatch table (R72). Register operands are 4-bit numbers (R21), literals have the
width of their field (R71), so a term of this type has no out-of-range operand. -/
inductive Instr where
  /-- `00E0`, CLS (R137). -/
  | cls
  /-- `00EE`, RET (R102). -/
  | ret
  /-- `1nnn`, JP nnn (R103). -/
  | jp (nnn : Lit12)
  /-- `2nnn`, CALL nnn (R104). -/
  | call (nnn : Lit12)
  /-- `3xkk`, SE Vx, kk (R105). -/
  | seImm (x : RegIdx) (kk : Byte)
  /-- `4xkk`, SNE Vx, kk (R106). -/
  | sneImm (x : RegIdx) (kk : Byte)
  /-- `5xy0`, SE Vx, Vy (R107). -/
  | seReg (x y : RegIdx)
  /-- `6xkk`, LD Vx, kk (R114). -/
  | ldImm (x : RegIdx) (kk : Byte)
  /-- `7xkk`, ADD Vx, kk (R115). -/
  | addImm (x : RegIdx) (kk : Byte)
  /-- `8xy0`, LD Vx, Vy (R116). -/
  | ldReg (x y : RegIdx)
  /-- `8xy1`, OR Vx, Vy (R117). -/
  | orReg (x y : RegIdx)
  /-- `8xy2`, AND Vx, Vy (R118). -/
  | andReg (x y : RegIdx)
  /-- `8xy3`, XOR Vx, Vy (R119). -/
  | xorReg (x y : RegIdx)
  /-- `8xy4`, ADD Vx, Vy (R120). -/
  | addReg (x y : RegIdx)
  /-- `8xy5`, SUB Vx, Vy (R121). -/
  | subReg (x y : RegIdx)
  /-- `8xy6`, SHR Vx (R122); `y` is encoded and its register is not read (R70, R79). -/
  | shr (x y : RegIdx)
  /-- `8xy7`, SUBN Vx, Vy (R123). -/
  | subnReg (x y : RegIdx)
  /-- `8xyE`, SHL Vx (R124); `y` is encoded and its register is not read (R70, R79). -/
  | shl (x y : RegIdx)
  /-- `9xy0`, SNE Vx, Vy (R108). -/
  | sneReg (x y : RegIdx)
  /-- `Annn`, LD I, nnn (R129). -/
  | ldI (nnn : Lit12)
  /-- `Bnnn`, JP V0, nnn (R109). -/
  | jpV0 (nnn : Lit12)
  /-- `Cxkk`, RND Vx, kk (R127). -/
  | rnd (x : RegIdx) (kk : Byte)
  /-- `Dxyn`, DRW Vx, Vy, n (R138). -/
  | drw (x y : RegIdx) (n : RowCount)
  /-- `Ex9E`, SKP Vx (R146). -/
  | skp (x : RegIdx)
  /-- `ExA1`, SKNP Vx (R147). -/
  | sknp (x : RegIdx)
  /-- `Fx07`, LD Vx, DT (R148). -/
  | ldVxDt (x : RegIdx)
  /-- `Fx0A`, LD Vx, K (R151). -/
  | ldVxK (x : RegIdx)
  /-- `Fx15`, LD DT, Vx (R149). -/
  | ldDtVx (x : RegIdx)
  /-- `Fx18`, LD ST, Vx (R150). -/
  | ldStVx (x : RegIdx)
  /-- `Fx1E`, ADD I, Vx (R130). -/
  | addIVx (x : RegIdx)
  /-- `Fx29`, LD F, Vx (R131). -/
  | ldFVx (x : RegIdx)
  /-- `Fx33`, LD B, Vx (R132). -/
  | ldBVx (x : RegIdx)
  /-- `Fx55`, LD [I], Vx (R133). -/
  | ldMemVx (x : RegIdx)
  /-- `Fx65`, LD Vx, [I] (R134). -/
  | ldVxMem (x : RegIdx)
  deriving DecidableEq, Repr

end Sys2Proof
end

