-- ==== Sys2Proof/WellFormed.lean ====
section
/-! DEFINITION. Well-formedness. An `Instr` needs no check: its operand types are exactly the fields of R69 and R71, so
every term is the image of a word. What is checked is the WORD: it is an instruction exactly when it agrees with a row
of the opcode table (R72, R75), stated here by the table's own match and mask, apart from the decoder. -/

namespace Sys2Proof

/-- A row of spec/opcode_table.json: the bits that are fixed and their values. -/
structure OpcodeRow where
  fixedBits : Word
  mask      : Word
  deriving DecidableEq, Repr

/-- A word agrees with a row when its masked bits are the row's. -/
abbrev OpcodeRow.Accepts (r : OpcodeRow) (w : Word) : Prop := w &&& r.mask = r.fixedBits

/-- The row of each instruction (the match and mask columns of the table). -/
def Instr.row : Instr → OpcodeRow
  | .cls         => ⟨0x00E0, 0xFFFF⟩
  | .ret         => ⟨0x00EE, 0xFFFF⟩
  | .jp _        => ⟨0x1000, 0xF000⟩
  | .call _      => ⟨0x2000, 0xF000⟩
  | .seImm _ _   => ⟨0x3000, 0xF000⟩
  | .sneImm _ _  => ⟨0x4000, 0xF000⟩
  | .seReg _ _   => ⟨0x5000, 0xF00F⟩
  | .ldImm _ _   => ⟨0x6000, 0xF000⟩
  | .addImm _ _  => ⟨0x7000, 0xF000⟩
  | .ldReg _ _   => ⟨0x8000, 0xF00F⟩
  | .orReg _ _   => ⟨0x8001, 0xF00F⟩
  | .andReg _ _  => ⟨0x8002, 0xF00F⟩
  | .xorReg _ _  => ⟨0x8003, 0xF00F⟩
  | .addReg _ _  => ⟨0x8004, 0xF00F⟩
  | .subReg _ _  => ⟨0x8005, 0xF00F⟩
  | .shr _ _     => ⟨0x8006, 0xF00F⟩
  | .subnReg _ _ => ⟨0x8007, 0xF00F⟩
  | .shl _ _     => ⟨0x800E, 0xF00F⟩
  | .sneReg _ _  => ⟨0x9000, 0xF00F⟩
  | .ldI _       => ⟨0xA000, 0xF000⟩
  | .jpV0 _      => ⟨0xB000, 0xF000⟩
  | .rnd _ _     => ⟨0xC000, 0xF000⟩
  | .drw _ _ _   => ⟨0xD000, 0xF000⟩
  | .skp _       => ⟨0xE09E, 0xF0FF⟩
  | .sknp _      => ⟨0xE0A1, 0xF0FF⟩
  | .ldVxDt _    => ⟨0xF007, 0xF0FF⟩
  | .ldVxK _     => ⟨0xF00A, 0xF0FF⟩
  | .ldDtVx _    => ⟨0xF015, 0xF0FF⟩
  | .ldStVx _    => ⟨0xF018, 0xF0FF⟩
  | .addIVx _    => ⟨0xF01E, 0xF0FF⟩
  | .ldFVx _     => ⟨0xF029, 0xF0FF⟩
  | .ldBVx _     => ⟨0xF033, 0xF0FF⟩
  | .ldMemVx _   => ⟨0xF055, 0xF0FF⟩
  | .ldVxMem _   => ⟨0xF065, 0xF0FF⟩

/-- All rows of the opcode table, in its order. -/
def opcodeRows : List OpcodeRow :=
  [⟨0x00E0, 0xFFFF⟩, ⟨0x00EE, 0xFFFF⟩, ⟨0x1000, 0xF000⟩, ⟨0x2000, 0xF000⟩, ⟨0x3000, 0xF000⟩, ⟨0x4000, 0xF000⟩] ++
  [⟨0x5000, 0xF00F⟩, ⟨0x6000, 0xF000⟩, ⟨0x7000, 0xF000⟩, ⟨0x8000, 0xF00F⟩, ⟨0x8001, 0xF00F⟩, ⟨0x8002, 0xF00F⟩] ++
  [⟨0x8003, 0xF00F⟩, ⟨0x8004, 0xF00F⟩, ⟨0x8005, 0xF00F⟩, ⟨0x8006, 0xF00F⟩, ⟨0x8007, 0xF00F⟩, ⟨0x800E, 0xF00F⟩] ++
  [⟨0x9000, 0xF00F⟩, ⟨0xA000, 0xF000⟩, ⟨0xB000, 0xF000⟩, ⟨0xC000, 0xF000⟩, ⟨0xD000, 0xF000⟩, ⟨0xE09E, 0xF0FF⟩] ++
  [⟨0xE0A1, 0xF0FF⟩, ⟨0xF007, 0xF0FF⟩, ⟨0xF00A, 0xF0FF⟩, ⟨0xF015, 0xF0FF⟩, ⟨0xF018, 0xF0FF⟩, ⟨0xF01E, 0xF0FF⟩] ++
  [⟨0xF029, 0xF0FF⟩, ⟨0xF033, 0xF0FF⟩, ⟨0xF055, 0xF0FF⟩, ⟨0xF065, 0xF0FF⟩]

/-- The word is one of the 43954 instruction words: it agrees with some row (R75, R76). Every other word is unmatched. -/
abbrev WordWellFormed (w : Word) : Prop := ∃ r ∈ opcodeRows, r.Accepts w

end Sys2Proof
end

