-- ==== Sys2Proof/Decode.lean ====
section
/-! DEFINITION. The decoder (R66 to R83), total on any bytes, and the encoder written from the same formats (R70). -/

namespace Sys2Proof

/-- `w[15:12]` (R69). -/
def fieldP (w : Word) : BitVec 4 := w.extractLsb' 12 4

/-- `x = w[11:8]` (R69). -/
def fieldX (w : Word) : RegIdx := w.extractLsb' 8 4

/-- `y = w[7:4]` (R69). -/
def fieldY (w : Word) : RegIdx := w.extractLsb' 4 4

/-- `n = w[3:0]`, the document's `suffix_4` (R69). -/
def fieldN (w : Word) : BitVec 4 := w.extractLsb' 0 4

/-- `kk = w[7:0]`, the document's `suffix_8` (R69). -/
def fieldKk (w : Word) : Byte := w.extractLsb' 0 8

/-- `nnn = w[11:0]` (R69). -/
def fieldNnn (w : Word) : Lit12 := w.extractLsb' 0 12

/-- Why bytes are no instruction. `unmatched` carries the word that dispatch reports (R75, R159); `truncated`: fewer than
the two bytes every instruction has (R66). -/
inductive DecodeError where
  | unmatched (w : Word)
  | truncated
  deriving DecidableEq, Repr

/-- Prefix 0 selects on the whole word (R73; log entry 24). -/
def decode0 (w : Word) : Except DecodeError Instr :=
  if w = 0x00E0 then .ok .cls
  else if w = 0x00EE then .ok .ret
  else .error (.unmatched w)

/-- Prefix 8 dispatches by `n` (R74). -/
def decode8 (w : Word) : Except DecodeError Instr :=
  match (fieldN w).toNat with
  | 0x0 => .ok (.ldReg (fieldX w) (fieldY w))
  | 0x1 => .ok (.orReg (fieldX w) (fieldY w))
  | 0x2 => .ok (.andReg (fieldX w) (fieldY w))
  | 0x3 => .ok (.xorReg (fieldX w) (fieldY w))
  | 0x4 => .ok (.addReg (fieldX w) (fieldY w))
  | 0x5 => .ok (.subReg (fieldX w) (fieldY w))
  | 0x6 => .ok (.shr (fieldX w) (fieldY w))
  | 0x7 => .ok (.subnReg (fieldX w) (fieldY w))
  | 0xE => .ok (.shl (fieldX w) (fieldY w))
  | _   => .error (.unmatched w)

/-- Prefix E dispatches by `kk` (R78). -/
def decodeE (w : Word) : Except DecodeError Instr :=
  match (fieldKk w).toNat with
  | 0x9E => .ok (.skp (fieldX w))
  | 0xA1 => .ok (.sknp (fieldX w))
  | _    => .error (.unmatched w)

/-- Prefix F dispatches by `kk` (R78). -/
def decodeF (w : Word) : Except DecodeError Instr :=
  match (fieldKk w).toNat with
  | 0x07 => .ok (.ldVxDt (fieldX w))
  | 0x0A => .ok (.ldVxK (fieldX w))
  | 0x15 => .ok (.ldDtVx (fieldX w))
  | 0x18 => .ok (.ldStVx (fieldX w))
  | 0x1E => .ok (.addIVx (fieldX w))
  | 0x29 => .ok (.ldFVx (fieldX w))
  | 0x33 => .ok (.ldBVx (fieldX w))
  | 0x55 => .ok (.ldMemVx (fieldX w))
  | 0x65 => .ok (.ldVxMem (fieldX w))
  | _    => .error (.unmatched w)

/-- The decode function of R83, total on all 65536 words (R68); it depends on nothing but the word (R80). -/
def decode (w : Word) : Except DecodeError Instr :=
  match (fieldP w).toNat with
  | 0x0 => decode0 w
  | 0x1 => .ok (.jp (fieldNnn w))
  | 0x2 => .ok (.call (fieldNnn w))
  | 0x3 => .ok (.seImm (fieldX w) (fieldKk w))
  | 0x4 => .ok (.sneImm (fieldX w) (fieldKk w))
  | 0x5 => if fieldN w = 0 then .ok (.seReg (fieldX w) (fieldY w)) else .error (.unmatched w)
  | 0x6 => .ok (.ldImm (fieldX w) (fieldKk w))
  | 0x7 => .ok (.addImm (fieldX w) (fieldKk w))
  | 0x8 => decode8 w
  | 0x9 => if fieldN w = 0 then .ok (.sneReg (fieldX w) (fieldY w)) else .error (.unmatched w)
  | 0xA => .ok (.ldI (fieldNnn w))
  | 0xB => .ok (.jpV0 (fieldNnn w))
  | 0xC => .ok (.rnd (fieldX w) (fieldKk w))
  | 0xD => .ok (.drw (fieldX w) (fieldY w) (fieldN w))
  | 0xE => decodeE w
  | 0xF => decodeF w
  | _   => .error (.unmatched w)   -- no 4-bit prefix is left (R69)

/-- The instruction word of two bytes, the first one in bits 15:8 (R49, R67). -/
def wordOfBytes (hi lo : Byte) : Word := hi ++ lo

/-- The byte an instruction word has at the lower address (R49, R66). -/
def highByte (w : Word) : Byte := w.extractLsb' 8 8

/-- The byte an instruction word has at the higher address (R49, R66). -/
def lowByte (w : Word) : Byte := w.extractLsb' 0 8

/-- Decode the instruction at the head of a byte string; it always has exactly two bytes (R66). -/
def decodeBytes : List Byte → Except DecodeError (Instr × List Byte)
  | hi :: lo :: rest =>
    match decode (wordOfBytes hi lo) with
    | .ok i => .ok (i, rest)
    | .error e => .error e
  | _ => .error .truncated

/-- The word of an instruction, by the formats of R70 and the opcode map of R72. -/
def encode : Instr → Word
  | .cls           => 0x00E0
  | .ret           => 0x00EE
  | .jp nnn        => 0x1#4 ++ nnn
  | .call nnn      => 0x2#4 ++ nnn
  | .seImm x kk    => 0x3#4 ++ x ++ kk
  | .sneImm x kk   => 0x4#4 ++ x ++ kk
  | .seReg x y     => 0x5#4 ++ x ++ y ++ 0x0#4
  | .ldImm x kk    => 0x6#4 ++ x ++ kk
  | .addImm x kk   => 0x7#4 ++ x ++ kk
  | .ldReg x y     => 0x8#4 ++ x ++ y ++ 0x0#4
  | .orReg x y     => 0x8#4 ++ x ++ y ++ 0x1#4
  | .andReg x y    => 0x8#4 ++ x ++ y ++ 0x2#4
  | .xorReg x y    => 0x8#4 ++ x ++ y ++ 0x3#4
  | .addReg x y    => 0x8#4 ++ x ++ y ++ 0x4#4
  | .subReg x y    => 0x8#4 ++ x ++ y ++ 0x5#4
  | .shr x y       => 0x8#4 ++ x ++ y ++ 0x6#4
  | .subnReg x y   => 0x8#4 ++ x ++ y ++ 0x7#4
  | .shl x y       => 0x8#4 ++ x ++ y ++ 0xE#4
  | .sneReg x y    => 0x9#4 ++ x ++ y ++ 0x0#4
  | .ldI nnn       => 0xA#4 ++ nnn
  | .jpV0 nnn      => 0xB#4 ++ nnn
  | .rnd x kk      => 0xC#4 ++ x ++ kk
  | .drw x y n     => 0xD#4 ++ x ++ y ++ n
  | .skp x         => 0xE#4 ++ x ++ 0x9E#8
  | .sknp x        => 0xE#4 ++ x ++ 0xA1#8
  | .ldVxDt x      => 0xF#4 ++ x ++ 0x07#8
  | .ldVxK x       => 0xF#4 ++ x ++ 0x0A#8
  | .ldDtVx x      => 0xF#4 ++ x ++ 0x15#8
  | .ldStVx x      => 0xF#4 ++ x ++ 0x18#8
  | .addIVx x      => 0xF#4 ++ x ++ 0x1E#8
  | .ldFVx x       => 0xF#4 ++ x ++ 0x29#8
  | .ldBVx x       => 0xF#4 ++ x ++ 0x33#8
  | .ldMemVx x     => 0xF#4 ++ x ++ 0x55#8
  | .ldVxMem x     => 0xF#4 ++ x ++ 0x65#8

/-- The 16-bit word of the low `nbits` bits of `w`, the bits above them zero. -/
def tableWord (nbits w : Nat) : Word := BitVec.ofNat 16 (w % 2 ^ nbits)

/-- The instruction the decoder reads from a word of the opcode table: the word is laid out as two
bytes, high byte first (R49, R66), and given to `decodeBytes`. -/
def decodeTableWord (nbits w : Nat) : Option Instr :=
  match decodeBytes [highByte (tableWord nbits w), lowByte (tableWord nbits w)] with
  | .ok (i, _) => some i
  | .error _ => none

end Sys2Proof
end

