-- ==== Sys2Proof/Config.lean ====
section
/-! DEFINITION. What an implementation fixes (R7) and the free values: the constants with no body
(`fontBase`, `randomByte`, `keysDown`, `audioError`, `keyboardError`) are known to no proof. -/

namespace Sys2Proof.Config

/-- `MEM_SIZE`: 4096 bytes, addresses 0x000 to 0xFFF (R7, R43, decision D1). -/
def memSize : Nat := 4096

/-- `PROG_BASE`: the start of the program region and the reset value of `PC` (R7, R44, R57). -/
def progBase : Nat := 0x200

/-- `STACK_DEPTH`: the call stack holds at most 16 return addresses (R7, R30). -/
def stackDepth : Nat := 16

/-- The possible values of `FONT_BASE`: every `b` with `b + 80 <= 0x200`, which is `b <= 432` (R7, R44). -/
abbrev FontBase := Fin 433

/-- The parameters of the font table: `FONT_BASE` and `FONT_DATA`, 80 bytes, glyph `d` at offset `5*d` (R7, R40, R44;
decisions D2, D3). A claim about glyph pixels names `data` (R40). -/
structure Font where
  base : FontBase
  data : Vector Byte 80
  deriving DecidableEq, Repr

/-- `FONT_BASE` is OPEN in the spec (R7, decision D2): a constant with no body, so a claim holds for
every value the constraint allows. DESIGN CHOICE of form, safe; log entry 2. -/
opaque fontBase : FontBase

/-- The bytes of the reference table of R40. -/
def fontTable : List Byte :=
  [0xF0, 0x90, 0x90, 0x90, 0xF0] ++ [0x20, 0x60, 0x20, 0x20, 0x70] ++
  [0xF0, 0x10, 0xF0, 0x80, 0xF0] ++ [0xF0, 0x10, 0xF0, 0x10, 0xF0] ++
  [0x90, 0x90, 0xF0, 0x10, 0x10] ++ [0xF0, 0x80, 0xF0, 0x10, 0xF0] ++
  [0xF0, 0x80, 0xF0, 0x90, 0xF0] ++ [0xF0, 0x10, 0x20, 0x40, 0x40] ++
  [0xF0, 0x90, 0xF0, 0x90, 0xF0] ++ [0xF0, 0x90, 0xF0, 0x10, 0xF0] ++
  [0xF0, 0x90, 0xF0, 0x90, 0x90] ++ [0xE0, 0x90, 0xE0, 0x90, 0xE0] ++
  [0xF0, 0x80, 0x80, 0x80, 0xF0] ++ [0xE0, 0x90, 0x90, 0x90, 0xE0] ++
  [0xF0, 0x80, 0xF0, 0x80, 0xF0] ++ [0xF0, 0x80, 0xF0, 0x80, 0x80]

/-- The default of `FONT_DATA` (R40, decision D3). PRESUMED: the spec supplies these bytes from general knowledge; log
entry 3. -/
def defaultFontData : Vector Byte 80 := ⟨fontTable.toArray, rfl⟩

/-- The font parameters of `State.reset`: the open base and the default data (log entries 2, 3). -/
def font : Font := ⟨fontBase, defaultFontData⟩

/-- The generator's byte in the `k`-th cycle for which the state lists no input (R127, R128, decision D14):
any of 256 values. DESIGN CHOICE of form, safe; log entry 5. -/
opaque randomByte : Nat → Byte

/-- The keys down, the first pressed one at the head, in the `k`-th cycle for which the state lists no
input (R99, decisions D13, D23): any snapshot. DESIGN CHOICE of form, safe; log entry 5. -/
opaque keysDown : Nat → List Key

/-- The outcome of the audio call, none for Ok, in the `k`-th cycle for which the state lists no input (R99, R160, decision
D15): any. DESIGN CHOICE of form, safe; log entry 5. -/
opaque audioError : Nat → Option Nat

/-- The outcome of the keyboard call, none for Ok, in the `k`-th cycle for which the state lists no input (R99, R160, decision
D15): any. DESIGN CHOICE of form, safe; log entry 5. -/
opaque keyboardError : Nat → Option Nat

end Sys2Proof.Config
end

