-- ==== Sys2Proof/Machine/State.lean ====
section
/-! DEFINITION. The state of the core: the record of R42, the font parameters (R7), the ports of a cycle (R86), and the state after
construction (R41, R178). -/

namespace Sys2Proof.Machine

/-- An error of the audio or keyboard collaborator, opaque to the core (R160): the core only passes it on. DESIGN
CHOICE of form; log entry 11. -/
abbrev CollabError := Nat

/-- The error taxonomy of R155, in the order of its codes 0 to 9. An error ends the cycle and is reported in `result`; it
does not stop the machine (R166, R169; log entry 1). -/
inductive CoreError where
  /-- Code 0: the register-file port with an index above 15; no instruction (R156). -/
  | invalidRegister (idx : Nat)
  /-- Code 1: `2nnn` with 16 entries on the stack (R157). -/
  | stackOverflow
  /-- Code 2: `00EE` with an empty stack (R158). -/
  | emptyStack
  /-- Code 3: the fetched word matches no pattern (R159). -/
  | unhandledInstruction (word : Word)
  /-- Code 4: a collaborator call failed (R160). -/
  | collaboratorError (e : CollabError)
  /-- Code 5: a memory access at or above `MEM_SIZE` (R161). -/
  | addressOutOfRange (addr : Nat)
  /-- Code 6: a store below 0x200 (R162). -/
  | protectedWrite (addr : Nat)
  /-- Code 7: `Fx29` with a register value above 15 (R163). -/
  | invalidGlyph (v : Byte)
  /-- Code 8: `Ex9E` or `ExA1` with a register value above 15 (R164). -/
  | invalidKey (v : Byte)
  /-- Code 9: `load_rom` of an image that does not fit; not a cycle (R165). -/
  | romTooLarge (len : Nat)
  deriving DecidableEq, Repr

/-- The result of a cycle (R96). -/
inductive CycleResult where
  | ok
  | err (e : CoreError)
  deriving DecidableEq, Repr

/-- The audio signal of a cycle (R86, R100). -/
inductive Tone where
  | beep
  | stopBeep
  deriving DecidableEq, Repr

/-- The engine's control field: one tagged state, so waiting without a target cannot be written (R33). -/
inductive Mode where
  | running
  | awaitingKey (target : RegIdx)
  deriving DecidableEq, Repr

/-- The inputs of one cycle (R38, R86, R99). -/
structure Inputs where
  /-- The keys down in this cycle's snapshot. `keys[k]` holds when `k` is in the list, and `first` is its head, so the two
  are consistent as R99 asks, and any pressed key can be the first (log entry 10). -/
  keysDown      : List Key
  /-- The generator's next byte, consumed only by `Cxkk`. -/
  rnd           : Byte
  /-- The outcome of this cycle's call of `beep()` or `stop_beep()`: none is Ok. -/
  audioError    : Option CollabError
  /-- The outcome of this cycle's call of `first_pressed()` or `is_key_pressed()`: none is Ok. -/
  keyboardError : Option CollabError
  deriving DecidableEq, Repr

/-- No key down, no failure, random byte 0. -/
def Inputs.idle : Inputs := ⟨[], 0, none, none⟩

/-- Memory: the bytes that differ from what an unlisted address reads as, by rising address (`Memory.wf` in
Machine/Ops.lean). -/
abbrev Memory := List Host.Cell

/-- The machine. The first nine fields are the record of R42 under its names; the rest is the model's own. -/
structure State where
  /-- General registers `V0`..`VF` (R18). -/
  V        : Vector Byte 16
  /-- Index register (R26). -/
  I        : Word
  /-- Program counter (R24). -/
  PC       : Word
  /-- Delay timer (R27). -/
  DT       : Byte
  /-- Sound timer (R28). -/
  ST       : Byte
  /-- Call stack, the last element on top (R10, R30). -/
  stack    : List Word
  /-- Engine state (R33). -/
  mode     : Mode
  /-- Memory (R37). -/
  mem      : Memory
  /-- Framebuffer: row `y` holds the pixels `x + 64*y`, `x` the bit number (R35; log entry 15). -/
  FB       : Vector (BitVec 64) 32
  /-- The parameters `FONT_BASE` and `FONT_DATA` (R7, R40, R44); constant while the machine runs (log entries 2, 3). -/
  font     : Config.Font
  /-- The inputs of the current cycle (R86; log entry 4). -/
  inputs   : Inputs
  /-- The inputs of the next cycles, oldest first (log entry 4). -/
  upcoming : List Inputs
  /-- Number of cycles begun: the argument of the free inputs (log entry 5). -/
  freeIdx  : Nat
  /-- What the latest cycle put on the tone port (R100; log entry 7). -/
  tone     : Option Tone
  /-- The latest cycle's result (R96; log entry 7). -/
  result   : CycleResult
  deriving DecidableEq, Repr

/-- Reasons for which the machine stops. There are none: the core has "No terminal state" (R97), and every error is a
cycle's result after which the caller may invoke the next cycle (R166, R169; log entry 1). No constructor, so nobody raises
one; safe. -/
inductive Fault where
  deriving DecidableEq, Repr

/-- Reasons for which the model gives an instruction no meaning. -/
inductive Refusal where
  /-- Raised by `exec` for an instruction that has no meaning yet, by name. No arm raises it: all 34 instructions are
  modelled. Safe. -/
  | notModelled (mnemonic : String)
  deriving DecidableEq, Repr

/-- The outcome of an instruction or a cycle. -/
abbrev Outcome := Host.Outcome State Fault Refusal

namespace State

/-! Plain updates, one field each. Their simp lemmas are in Laws/State.lean. -/

def setV (s : State) (v : Vector Byte 16) : State := { s with V := v }
def setI (s : State) (v : Word) : State := { s with I := v }
def setPC (s : State) (v : Word) : State := { s with PC := v }
def setDT (s : State) (v : Byte) : State := { s with DT := v }
def setST (s : State) (v : Byte) : State := { s with ST := v }
def setStack (s : State) (v : List Word) : State := { s with stack := v }
def setMode (s : State) (v : Mode) : State := { s with mode := v }
def setMem (s : State) (v : Memory) : State := { s with mem := v }
def setFB (s : State) (v : Vector (BitVec 64) 32) : State := { s with FB := v }
def setTone (s : State) (v : Option Tone) : State := { s with tone := v }
def setResult (s : State) (v : CycleResult) : State := { s with result := v }

/-- The state after construction with the given font parameters, before `load_rom` (R41, R177 to R179). Memory lists
nothing: an unlisted address reads as constructed (R41, R45; log entry 9). The values the document does not give are the
spec's decision D8 (log entry 8); the model's own fields are log entry 17. -/
def construct (font : Config.Font) : State where
  V        := Vector.replicate 16 0
  I        := 0
  PC       := 0x200
  DT       := 0
  ST       := 0
  stack    := []
  mode     := .running
  mem      := []
  FB       := Vector.replicate 32 0
  font     := font
  inputs   := Inputs.idle
  upcoming := []
  freeIdx  := 0
  tone     := none
  result   := .ok

/-- The state after construction with the open `FONT_BASE` and the default `FONT_DATA` (R40, R41; log entries 2, 3). -/
def reset : State := construct Config.font

end State

end Sys2Proof.Machine
end

