-- ==== Sys2Proof/Machine/Ops.lean ====
section
/-! DEFINITION. The named operations over registers, memory, the call stack and the result port, each written once. -/

namespace Sys2Proof.Machine

/-! ## Ending an instruction -/

/-- Error entry, the core's only exception mechanism (R154, R166): the error is reported in `result`, every change made
before it stays, and nothing else is saved or changed. -/
def State.raised (s : State) (e : CoreError) : State := s.setResult (.err e)

/-- Raise an error: the cycle ends here (R12, R166). -/
def raise (e : CoreError) (s : State) : Outcome := .next (s.raised e)

/-- The cycle ends normally (R96). -/
def complete (s : State) : Outcome := .next (s.setResult .ok)

/-! ## Registers -/

/-- `V[x]` (R10, R18). -/
def State.reg (s : State) (x : RegIdx) : Byte := s.V[x.toFin]

/-- `V[x] <- b` (R10, R18). -/
def State.setReg (s : State) (x : RegIdx) (b : Byte) : State := s.setV (s.V.set x.toFin b)

/-- The register file's read port `register(idx)` (R19, R156). -/
def register (idx : Nat) (s : State) : Except CoreError Byte :=
  if 15 < idx then .error (.invalidRegister idx) else .ok (s.reg (BitVec.ofNat 4 idx))

/-- The register file's write port `set_register(idx, b)` (R19, R156). -/
def setRegister (idx : Nat) (b : Byte) (s : State) : Except CoreError State :=
  if 15 < idx then .error (.invalidRegister idx) else .ok (s.setReg (BitVec.ofNat 4 idx) b)

/-! ## Memory -/

/-- The font byte of an address after construction, 0 outside the font table (R40, R45). -/
def fontByte (font : Config.Font) (a : Nat) : Byte :=
  if font.base.val ≤ a then font.data.toList.getD (a - font.base.val) 0 else 0

/-- What an unlisted address reads as: the byte it has after construction (R41, R45, R178; log entry 9). -/
def resetByte (font : Config.Font) (a : Nat) : Byte :=
  if a < Config.progBase then fontByte font a else 0

/-- The byte at an address. -/
def Memory.peek (font : Config.Font) (m : Memory) (a : Nat) : Byte :=
  match m with
  | [] => resetByte font a
  | (k, v) :: rest => if k = a then v else Memory.peek font rest a

/-- Put an entry before the first one with a higher address. -/
def Memory.insert (m : Memory) (a : Nat) (v : Byte) : Memory :=
  match m with
  | [] => [(a, v)]
  | (k, w) :: rest => if a < k then (a, v) :: (k, w) :: rest else (k, w) :: Memory.insert rest a v

/-- Remove every entry of an address. -/
def Memory.erase (m : Memory) (a : Nat) : Memory := m.filter (fun c => decide (c.1 ≠ a))

/-- Set the byte at an address and keep the canonical form: no entry equals what an unlisted address reads as. -/
def Memory.poke (font : Config.Font) (m : Memory) (a : Nat) (v : Byte) : Memory :=
  if v = resetByte font a then m.erase a else (m.erase a).insert a v

/-- Set consecutive bytes from an address on. -/
def Memory.pokeBytes (font : Config.Font) (m : Memory) (a : Nat) : List Byte → Memory
  | [] => m
  | b :: bs => Memory.pokeBytes font (m.poke font a b) (a + 1) bs

/-- The addresses rise strictly from `lo` on, exist (below `MEM_SIZE`), and no entry equals what its address reads as when
unlisted. -/
def Memory.wfFrom (font : Config.Font) (lo : Nat) (m : Memory) : Bool :=
  match m with
  | [] => true
  | (k, v) :: rest =>
    decide (lo ≤ k) && decide (k < Config.memSize) && decide (v ≠ resetByte font k) && Memory.wfFrom font (k + 1) rest

/-- The canonical form of memory: equal memories are equal lists. -/
def Memory.wf (font : Config.Font) (m : Memory) : Bool := Memory.wfFrom font 0 m

/-- `mem[a]`, without the range check. -/
def State.byteAt (s : State) (a : Nat) : Byte := s.mem.peek s.font a

/-- `mem[a] <- v`, without checks. -/
def State.setByte (s : State) (a : Nat) (v : Byte) : State := s.setMem (s.mem.poke s.font a v)

/-- `MemRead(addr, 1)`, `read_byte` (R50; log entry 19). -/
def memRead (addr : Nat) (s : State) : Except CoreError Byte :=
  if Config.memSize ≤ addr then .error (.addressOutOfRange addr) else .ok (s.byteAt addr)

/-- `MemRead(addr, 2)`, `read_u16`, big-endian, used by the fetch only (R49, R51; log entries 19, 20). -/
def memReadWord (addr : Nat) (s : State) : Except CoreError Word :=
  match memRead addr s with
  | .error e => .error e
  | .ok hi =>
    match memRead (addr + 1) s with
    | .error e => .error e
    | .ok lo => .ok (wordOfBytes hi lo)

/-- `MemWrite(addr, 1, v)`, `write_byte` (R52, R53; log entry 19). -/
def memWrite (addr : Nat) (v : Byte) (s : State) : Except CoreError State :=
  if Config.memSize ≤ addr then .error (.addressOutOfRange addr)
  else if addr < Config.progBase then .error (.protectedWrite addr)
  else .ok (s.setByte addr v)

/-- Store bytes at consecutive addresses, one at a time in ascending order; the bytes before a failing one
stay stored (R48, R64; log entry 19). -/
def storeBytes (addr : Nat) (bytes : List Byte) (s : State) : Outcome :=
  match bytes with
  | [] => complete s
  | b :: bs =>
    match memWrite addr b s with
    | .error e => raise e s
    | .ok s' => storeBytes (addr + 1) bs s'

/-- Load `count` registers, from number `r` on, from consecutive addresses, one at a time in ascending order; the registers
before a failing read stay loaded (R48, R64; log entry 19). -/
def loadRegs (addr r count : Nat) (s : State) : Outcome :=
  match count with
  | 0 => complete s
  | k + 1 =>
    match memRead addr s with
    | .error e => raise e s
    | .ok b => loadRegs (addr + 1) (r + 1) k (s.setReg (BitVec.ofNat 4 r) b)

/-- `load_rom(bytes)`: the host's boot operation (R47, R165, R180; log entry 13). -/
def loadRom (bytes : List Byte) (s : State) : Except CoreError State :=
  if Config.memSize < Config.progBase + bytes.length then .error (.romTooLarge bytes.length)
  else .ok (s.setMem (s.mem.pokeBytes s.font Config.progBase bytes))

/-! ## Program counter and call stack -/

/-- The fetch advance (R92). -/
def State.advance (s : State) : State := s.setPC (s.PC + 2)

/-- A skip when the condition holds: 2 more on the already advanced `PC` (R12, R111). -/
def State.skipIf (s : State) (c : Bool) : State := s.setPC (if c then s.PC + 2 else s.PC)

/-- `push_stack(addr)`: the depth check comes first (R31, C4; log entries 16, 25). -/
def pushStack (addr : Word) (s : State) : Except CoreError State :=
  if Config.stackDepth ≤ s.stack.length then .error .stackOverflow
  else .ok ((s.setStack (s.stack ++ [s.PC])).setPC addr)

/-- `pop_stack()` (R32). -/
def popStack (s : State) : Except CoreError State :=
  match s.stack.getLast? with
  | none => .error .emptyStack
  | some a => .ok ((s.setStack s.stack.dropLast).setPC a)

/-- End an instruction with the outcome of a checked operation: complete, or raise its error with the state unchanged. -/
def finish (r : Except CoreError State) (s : State) : Outcome :=
  match r with
  | .ok s' => complete s'
  | .error e => raise e s

/-! ## Timers and ports -/

/-- `decrement_dt()` and `decrement_st()`, both saturating at 0 (R29, R90). -/
def saturatingDec (t : Byte) : Byte := if t = 0 then 0 else t - 1

/-- Step 3 of a `Running` cycle (R90). -/
def State.decrementTimers (s : State) : State := (s.setST (saturatingDec s.ST)).setDT (saturatingDec s.DT)

/-- `Keys(k)`, `is_key_pressed`: the snapshot's level of key `k`, or the keyboard's error (R86, R99, R160). -/
def keyPressed (k : Key) (s : State) : Except CoreError Bool :=
  match s.inputs.keyboardError with
  | some e => .error (.collaboratorError e)
  | none => .ok (decide (k ∈ s.inputs.keysDown))

/-- `FirstPressed()`, `first_pressed`: a pressed key if there is one, or the keyboard's error (R88, R99, R160). -/
def firstPressed (s : State) : Except CoreError (Option Key) :=
  match s.inputs.keyboardError with
  | some e => .error (.collaboratorError e)
  | none => .ok s.inputs.keysDown.head?

end Sys2Proof.Machine
end

