-- ==== Sys2Proof/Machine/Operands.lean ====
section
/-! DEFINITION. The operand forms: registers `V[x]` (`State.reg`), zero-extended literals (R71), and the one data addressing
mode, index plus offset (R136). -/

namespace Sys2Proof.Machine

/-- `zext_16(nnn)`: a 12-bit literal in a 16-bit register (R71). -/
def zextLit (nnn : Lit12) : Word := nnn.setWidth 16

/-- `zext_16(v)`: a byte in a 16-bit sum (R109, R130). -/
def zextByte (v : Byte) : Word := v.setWidth 16

/-- A key code in an 8-bit register (R88). -/
def zextKey (k : Key) : Byte := k.setWidth 8

/-- The base of every data access: `I` as an unbounded integer; the offset is added without truncation (R65, R136). -/
def State.dataAddr (s : State) : Nat := s.I.toNat

/-- The 4-bit digit or key code of a register value, none above 15 (R46, R146; log entry 23). -/
def digit? (v : Byte) : Option (BitVec 4) := if 15 < v.toNat then none else some (v.setWidth 4)

/-- `font_glyph_address(d) = FONT_BASE + 5*d` (R46). -/
def glyphAddress (base : Config.FontBase) (d : BitVec 4) : Word := BitVec.ofNat 16 (base.val + 5 * d.toNat)

/-- The hundreds, tens and units of a byte (R132). -/
def bcdDigits (v : Byte) : List Byte :=
  [BitVec.ofNat 8 (v.toNat / 100), BitVec.ofNat 8 (v.toNat / 10 % 10), BitVec.ofNat 8 (v.toNat % 10)]

/-- The values of `V0..Vx` inclusive, ascending (R133). -/
def State.regsUpTo (s : State) (x : RegIdx) : List Byte := s.V.toList.take (x.toNat + 1)

end Sys2Proof.Machine
end

