-- ==== Sys2Proof/Machine/Cycle.lean ====
section
/-! DEFINITION. The cycle up to the execution of the instruction (R85 to R95): the inputs of the cycle, the key wait, the audio
signal, the timers, the fetch, the advance and the decoding; and how a program is placed in memory. -/

namespace Sys2Proof.Machine

/-- The inputs of the next cycle: the first ones listed, or free values when none are listed (R38, R86; log entries 4, 5). -/
def State.nextInputs (s : State) : Inputs :=
  match s.upcoming with
  | i :: _ => i
  | [] => ⟨Config.keysDown s.freeIdx, Config.randomByte s.freeIdx, Config.audioError s.freeIdx, Config.keyboardError s.freeIdx⟩

/-- The driver invokes a cycle (R85): its inputs are presented and both output ports start empty (R88: no tone while
waiting; R96). This is also how the machine resumes after an error, since there is no return instruction (R169). -/
def startCycle (s : State) : State :=
  { s with inputs := s.nextInputs, upcoming := s.upcoming.tail, freeIdx := s.freeIdx + 1, tone := none, result := .ok }

/-- Step 1, in `AwaitingKey(target)`: the cycle ends here whether or not a key is down (R88, R98). -/
def waitForKey (target : RegIdx) (s : State) : State :=
  match firstPressed s with
  | .error e => s.raised e
  | .ok none => s
  | .ok (some k) => (s.setReg target (zextKey k)).setMode .running

/-- Step 2: the audio signal, from `ST` before this cycle's decrement (R89, R100). -/
def State.signalTone (s : State) : State := s.setTone (some (if s.ST = 0 then .stopBeep else .beep))

/-- Where a cycle stands before step 5 executes an instruction: it has ended in the state `s`, or it executes `i` in `s`. -/
inductive Stage where
  | ended (s : State)
  | execute (i : Instr) (s : State)
  deriving DecidableEq, Repr

/-- Step 4 and the decoding of step 5 (R91 to R94): a fetch error leaves `PC`; an unmatched word does not roll the
advance back. -/
def fetchAndDecode (s : State) : Stage :=
  match memReadWord s.PC.toNat s with
  | .error e => .ended (s.raised e)
  | .ok w =>
    match decode w with
    | .error _ => .ended (s.advance.raised (.unhandledInstruction w))
    | .ok i => .execute i s.advance

/-- Steps 2 to 4 of a `Running` cycle (R87, R89 to R92): a failing audio call ends the cycle before the timers and the
fetch (R160); the tone was put out all the same (R100; log entry 12). -/
def runningStage (s : State) : Stage :=
  match s.inputs.audioError with
  | some e => .ended (s.signalTone.raised (.collaboratorError e))
  | none => fetchAndDecode s.signalTone.decrementTimers

/-- The cycle up to the execution of the instruction (R87, R95). -/
def stage (s : State) : Stage :=
  match s.mode with
  | .awaitingKey r => .ended (waitForKey r s)
  | .running => runningStage s

/-- Let the next cycle's audio call succeed: change this one outcome in that cycle's inputs. If they are not listed, list
them, with free keys and a free random byte and with calls that succeed (log entry 14). -/
def State.withAudioOk (s : State) : State :=
  match s.upcoming with
  | [] => { s with upcoming := [⟨Config.keysDown s.freeIdx, Config.randomByte s.freeIdx, none, none⟩] }
  | i :: rest => { s with upcoming := { i with audioError := none } :: rest }

/-- Place a word, as two bytes high byte first, at the address the next cycle fetches from, with everything that cycle needs to
fetch it: `Running`, a `PC` from which two bytes can be fetched, an audio call that succeeds (log entry 14). -/
def State.placeWord (s : State) (w : Word) : State :=
  let s := (s.setMode .running).withAudioOk
  let s := if s.PC.toNat + 1 < Config.memSize then s else s.setPC 0x200
  (s.setByte s.PC.toNat (highByte w)).setByte (s.PC.toNat + 1) (lowByte w)

end Sys2Proof.Machine
end

