-- ==== Sys2Proof/Machine/Flags.lean ====
section
/-! DEFINITION. The one flag, `VF` (R22), and every flag computation (R126). All of them are unsigned and are computed
from the operands sampled before any write (R113). -/

namespace Sys2Proof.Machine

/-- `VF`, register 15 (R22). -/
abbrev vf : RegIdx := 15

/-- `set_flag(b)`: `VF` becomes exactly 0x01 or 0x00 (R20). -/
def State.setFlag (s : State) (b : Bool) : State := s.setReg vf (if b then 0x01 else 0x00)

/-- Carry of `8xy4`: unsigned overflow of the sum (R120). -/
def addCarry (vx vy : Byte) : Bool := decide (0xFF < vx.toNat + vy.toNat)

/-- Flag of `8xy5`: strictly greater (R121). -/
def subFlag (vx vy : Byte) : Bool := decide (vy.toNat < vx.toNat)

/-- Flag of `8xy7`: strictly less (R123). -/
def subnFlag (vx vy : Byte) : Bool := decide (vx.toNat < vy.toNat)

/-- Flag of `8xy6`: the bit shifted out, bit 0 (R122). -/
def shrFlag (vx : Byte) : Bool := vx.getLsbD 0

/-- Flag of `8xyE`: the bit shifted out, bit 7 (R124, C2). -/
def shlFlag (vx : Byte) : Bool := vx.getLsbD 7

end Sys2Proof.Machine
end

