-- ==== Sys2Proof/Machine/Alu.lean ====
section
/-! DEFINITION. The register load and arithmetic instructions (R113 to R128). Operands are sampled first; the writes then happen
in the table's order, which decides what `VF` keeps when it is the destination (R113; log entry 22). -/

namespace Sys2Proof.Machine

/-- LD Vx, kk, `6xkk` (R114). -/
def execLdImm (x : RegIdx) (kk : Byte) (s : State) : Outcome := complete (s.setReg x kk)

/-- ADD Vx, kk, `7xkk`: wraps, no flag (R115). -/
def execAddImm (x : RegIdx) (kk : Byte) (s : State) : Outcome := complete (s.setReg x (s.reg x + kk))

/-- LD Vx, Vy, `8xy0` (R116). -/
def execLdReg (x y : RegIdx) (s : State) : Outcome := complete (s.setReg x (s.reg y))

/-- OR Vx, Vy, `8xy1`: no flag (R117). -/
def execOrReg (x y : RegIdx) (s : State) : Outcome := complete (s.setReg x (s.reg x ||| s.reg y))

/-- AND Vx, Vy, `8xy2`: no flag (R118). -/
def execAndReg (x y : RegIdx) (s : State) : Outcome := complete (s.setReg x (s.reg x &&& s.reg y))

/-- XOR Vx, Vy, `8xy3`: no flag (R119). -/
def execXorReg (x y : RegIdx) (s : State) : Outcome := complete (s.setReg x (s.reg x ^^^ s.reg y))

/-- ADD Vx, Vy, `8xy4`: the sum is written first, the carry last (R113, R120). -/
def execAddReg (x y : RegIdx) (s : State) : Outcome :=
  let vx := s.reg x
  let vy := s.reg y
  complete ((s.setReg x (vx + vy)).setFlag (addCarry vx vy))

/-- SUB Vx, Vy, `8xy5`: the flag is written first, the difference last (R113, R121). -/
def execSubReg (x y : RegIdx) (s : State) : Outcome :=
  let vx := s.reg x
  let vy := s.reg y
  complete ((s.setFlag (subFlag vx vy)).setReg x (vx - vy))

/-- SHR Vx, `8xy6`: the register of `y` is not read; the flag is written first (R113, R122). -/
def execShr (x _y : RegIdx) (s : State) : Outcome :=
  let vx := s.reg x
  complete ((s.setFlag (shrFlag vx)).setReg x (vx >>> 1))

/-- SUBN Vx, Vy, `8xy7`: the flag is written first, the difference last (R113, R123). -/
def execSubnReg (x y : RegIdx) (s : State) : Outcome :=
  let vx := s.reg x
  let vy := s.reg y
  complete ((s.setFlag (subnFlag vx vy)).setReg x (vy - vx))

/-- SHL Vx, `8xyE`: the register of `y` is not read; the flag is written first (R113, R124). -/
def execShl (x _y : RegIdx) (s : State) : Outcome :=
  let vx := s.reg x
  complete ((s.setFlag (shlFlag vx)).setReg x (vx <<< 1))

/-- RND Vx, kk, `Cxkk`: the cycle's random byte under the mask (R127, R128). -/
def execRnd (x : RegIdx) (kk : Byte) (s : State) : Outcome := complete (s.setReg x (s.inputs.rnd &&& kk))

end Sys2Proof.Machine
end

