-- ==== Sys2Proof/Machine/ControlFlow.lean ====
section
/-! DEFINITION. The control transfer instructions (R102 to R112). On entry `PC` is the address after the instruction (R92). -/

namespace Sys2Proof.Machine

/-- RET, `00EE` (R102). -/
def execRet (s : State) : Outcome := finish (popStack s) s

/-- JP nnn, `1nnn` (R103). -/
def execJp (nnn : Lit12) (s : State) : Outcome := complete (s.setPC (zextLit nnn))

/-- CALL nnn, `2nnn` (R104). -/
def execCall (nnn : Lit12) (s : State) : Outcome := finish (pushStack (zextLit nnn) s) s

/-- SE Vx, kk, `3xkk` (R105). -/
def execSeImm (x : RegIdx) (kk : Byte) (s : State) : Outcome := complete (s.skipIf (decide (s.reg x = kk)))

/-- SNE Vx, kk, `4xkk` (R106). -/
def execSneImm (x : RegIdx) (kk : Byte) (s : State) : Outcome := complete (s.skipIf (decide (s.reg x ≠ kk)))

/-- SE Vx, Vy, `5xy0` (R107). -/
def execSeReg (x y : RegIdx) (s : State) : Outcome := complete (s.skipIf (decide (s.reg x = s.reg y)))

/-- SNE Vx, Vy, `9xy0` (R108). -/
def execSneReg (x y : RegIdx) (s : State) : Outcome := complete (s.skipIf (decide (s.reg x ≠ s.reg y)))

/-- JP V0, nnn, `Bnnn`: the sum is not masked to 12 bits (R109; log entry 26). -/
def execJpV0 (nnn : Lit12) (s : State) : Outcome := complete (s.setPC (zextLit nnn + zextByte (s.reg 0)))

end Sys2Proof.Machine
end

