-- ==== Sys2Proof/Machine/Display.lean ====
section
/-! DEFINITION. The framebuffer operations and the display instructions (R137 to R145). -/

namespace Sys2Proof.Machine

/-- `pixel(x, y)`: `FB[x, y]` for `x < 64`, `y < 32` (R35, R145). -/
def State.pixel (s : State) (x : Fin 64) (y : Fin 32) : Bool := s.FB[y].getLsbD x.val

/-- `set_pixel` with a sprite bit: the pixel is toggled by XOR when the bit is 1, and unchanged when it is 0 (R36, R138, R145). -/
def State.xorPixel (s : State) (x : Fin 64) (y : Fin 32) (bit : Bool) : State :=
  s.setFB (s.FB.set y (s.FB[y] ^^^ (if bit then BitVec.twoPow 64 x.val else 0)))

/-- `set_flag(true)` when the condition holds; otherwise `VF` keeps its value (R141). -/
def State.setFlagWhen (s : State) (c : Bool) : State := s.setReg vf (if c then 0x01 else s.reg vf)

/-- `clear()`: every pixel unset (R36, R137). -/
def State.clearDisplay (s : State) : State := s.setFB (Vector.replicate 32 0)

/-- One column `c` of a sprite row: a 1 bit toggles the wrapped pixel, and a set pixel that it unsets sets the
flag (R138 to R141); column 0 takes the most significant bit (R140; log entry 27). -/
def drawPixel (px py : Byte) (r : Nat) (b : Byte) (s : State) (c : Nat) : State :=
  let X := Fin.ofNat 64 (px.toNat + c)
  let Y := Fin.ofNat 32 (py.toNat + r)
  let bit := b.getLsbD (7 - c)
  (s.xorPixel X Y bit).setFlagWhen (bit && s.pixel X Y)

/-- The eight columns of sprite row `r`, left to right (R138). -/
def drawRow (px py : Byte) (r : Nat) (b : Byte) (s : State) : State := (List.range 8).foldl (drawPixel px py r b) s

/-- `count` sprite rows from row `r` on, the sprite's first byte at `addr`, one row at a time; the rows before a failing
read stay drawn (R138, R144). -/
def drawRows (px py : Byte) (addr r count : Nat) (s : State) : Outcome :=
  match count with
  | 0 => complete s
  | k + 1 =>
    match memRead (addr + r) s with
    | .error e => raise e s
    | .ok b => drawRows px py addr (r + 1) k (drawRow px py r b s)

/-- CLS, `00E0` (R137). -/
def execCls (s : State) : Outcome := complete s.clearDisplay

/-- DRW Vx, Vy, n, `Dxyn`: the coordinates are read before `VF` is cleared (R138). -/
def execDrw (x y : RegIdx) (n : RowCount) (s : State) : Outcome :=
  drawRows (s.reg x) (s.reg y) s.dataAddr 0 n.toNat (s.setFlag false)

end Sys2Proof.Machine
end

