-- ==== Sys2Proof/Machine/IndexMemory.lean ====
section
/-! DEFINITION. The index register and memory instructions (R129 to R136). None of them changes `I` as a side effect (R135; log entry 21). -/

namespace Sys2Proof.Machine

/-- LD I, nnn, `Annn` (R129). -/
def execLdI (nnn : Lit12) (s : State) : Outcome := complete (s.setI (zextLit nnn))

/-- ADD I, Vx, `Fx1E`: wraps at 16 bits, no flag (R130). -/
def execAddIVx (x : RegIdx) (s : State) : Outcome := complete (s.setI (s.I + zextByte (s.reg x)))

/-- LD F, Vx, `Fx29`: the glyph's address, or `InvalidGlyph` above 15 (R131). -/
def execLdFVx (x : RegIdx) (s : State) : Outcome :=
  match digit? (s.reg x) with
  | none => raise (.invalidGlyph (s.reg x)) s
  | some d => complete (s.setI (glyphAddress s.font.base d))

/-- LD B, Vx, `Fx33`: hundreds, tens and units at `I`, `I+1`, `I+2` (R132). -/
def execLdBVx (x : RegIdx) (s : State) : Outcome := storeBytes s.dataAddr (bcdDigits (s.reg x)) s

/-- LD [I], Vx, `Fx55`: `V0..Vx` to memory from `I` on (R133). -/
def execLdMemVx (x : RegIdx) (s : State) : Outcome := storeBytes s.dataAddr (s.regsUpTo x) s

/-- LD Vx, [I], `Fx65`: memory from `I` on to `V0..Vx` (R134). -/
def execLdVxMem (x : RegIdx) (s : State) : Outcome := loadRegs s.dataAddr 0 (x.toNat + 1) s

end Sys2Proof.Machine
end

