-- ==== Sys2Proof/Machine/KeysTimers.lean ====
section
/-! DEFINITION. The keyboard and timer instructions (R146 to R153). On entry the timers have been decremented in this cycle (R90). -/

namespace Sys2Proof.Machine

/-- The key test of `Ex9E` and `ExA1`: the range check comes before the query (R146, R168); skip when the level of the
key named by `Vx` is `want`. -/
def skipOnKey (want : Bool) (x : RegIdx) (s : State) : Outcome :=
  match digit? (s.reg x) with
  | none => raise (.invalidKey (s.reg x)) s
  | some k =>
    match keyPressed k s with
    | .error e => raise e s
    | .ok down => complete (s.skipIf (down == want))

/-- SKP Vx, `Ex9E` (R146). -/
def execSkp (x : RegIdx) (s : State) : Outcome := skipOnKey true x s

/-- SKNP Vx, `ExA1` (R147). -/
def execSknp (x : RegIdx) (s : State) : Outcome := skipOnKey false x s

/-- LD Vx, DT, `Fx07` (R148). -/
def execLdVxDt (x : RegIdx) (s : State) : Outcome := complete (s.setReg x s.DT)

/-- LD DT, Vx, `Fx15` (R149). -/
def execLdDtVx (x : RegIdx) (s : State) : Outcome := complete (s.setDT (s.reg x))

/-- LD ST, Vx, `Fx18` (R150). -/
def execLdStVx (x : RegIdx) (s : State) : Outcome := complete (s.setST (s.reg x))

/-- LD Vx, K, `Fx0A`: start waiting; the key is not tested in this cycle (R151). -/
def execLdVxK (x : RegIdx) (s : State) : Outcome := complete (s.setMode (.awaitingKey x))

end Sys2Proof.Machine
end

