-- ==== Sys2Proof/Machine/Step.lean ====
section
/-! DEFINITION. One step: one cycle of the engine (R85, R95). -/

namespace Sys2Proof.Machine

/-- One cycle (R95): its inputs are presented, steps 1 to 4 run, and the decoded instruction, if the cycle comes to one, is
executed, in the state after the advance (log entry 28). -/
def step (s : State) : Host.Outcome State Fault Refusal :=
  match stage (startCycle s) with
  | .ended t => .next t
  | .execute i t => exec i t

/-- The state in which the next step fetches and runs the instruction with the bits `w` (log entry 14). -/
def State.withFetchWord (s : State) (nbits w : Nat) : State := s.placeWord (tableWord nbits w)

end Sys2Proof.Machine
end

