-- ==== Sys2Proof/Safety.lean ====
section
/-! DEFINITION. The terms claims use: what a cycle fetches, what an instruction leaves unchanged, the invariant of R25 and R42, and
the parked state of R97. -/

namespace Sys2Proof.Machine

/-! ## Encoding -/

/-- Every word with the given fixed bits decodes to the given instruction of its fields (the match and mask of an
instruction rule). -/
def Encodes (mask fixedBits : Word) (f : Word → Instr) : Prop := ∀ w : Word, w &&& mask = fixedBits → decode w = .ok (f w)

/-! ## Frames -/

/-- Every general register outside the list is unchanged. -/
def RegsKept (changed : List RegIdx) (s t : State) : Prop := ∀ r, r ∉ changed → t.reg r = s.reg r

/-- Every byte of memory is unchanged. -/
def MemKept (s t : State) : Prop := ∀ a, t.byteAt a = s.byteAt a

/-- Every byte of memory outside the `len` bytes from `addr` on is unchanged. -/
def MemKeptOutside (addr len : Nat) (s t : State) : Prop := ∀ a, a < addr ∨ addr + len ≤ a → t.byteAt a = s.byteAt a

/-! ## Sprites -/

/-- The pixel `(X, Y)` is a 1 bit of the first `m` sprite rows at `(px, py)`, read from `I` on: coordinates wrap (R139), and column `c` takes bit
`7 - c` (R140). -/
def SpriteBit (s : State) (px py : Byte) (m : Nat) (X : Fin 64) (Y : Fin 32) : Prop :=
  ∃ r < m, ∃ c < 8, X.val = (px.toNat + c) % 64 ∧ Y.val = (py.toNat + r) % 32 ∧
    (s.byteAt (s.I.toNat + r)).getLsbD (7 - c) = true

/-- Some pixel went from set to unset (R141). -/
def Collision (s t : State) : Prop := ∃ X Y, s.pixel X Y = true ∧ t.pixel X Y = false

/-! ## Cycles -/

/-- The word at `PC`, big-endian (R67). -/
def State.wordAtPC (s : State) : Word := wordOfBytes (s.byteAt s.PC.toNat) (s.byteAt (s.PC.toNat + 1))

/-- The next cycle comes to a fetch: `Running` and its audio call succeeds (R87, R89). -/
def ReachesFetch (s : State) : Prop := s.mode = .running ∧ s.nextInputs.audioError = none

/-- The next cycle executes `i`: it comes to a fetch, both bytes at `PC` exist and they decode to `i` (R91, R93). -/
def Fetches (s : State) (i : Instr) : Prop :=
  ReachesFetch s ∧ s.PC.toNat + 1 < Config.memSize ∧ decode s.wordAtPC = .ok i

/-- A timer after one decrement, never below 0 (R29). -/
def decremented (t : Byte) : Byte := BitVec.ofNat 8 (t.toNat - 1)

/-- The signal of a cycle that begins with this `ST` (R89). -/
def toneOf (st : Byte) : Tone := if 0 < st.toNat then .beep else .stopBeep

/-- The state at the start of a cycle: its inputs presented, the output ports empty. -/
def State.begun (s : State) : State :=
  { s with inputs := s.nextInputs, upcoming := s.upcoming.tail, freeIdx := s.freeIdx + 1, tone := none, result := .ok }

/-- The state after steps 2 and 3 of a cycle that passes them (R89, R90). -/
def State.timed (s : State) : State :=
  { s.begun with tone := some (toneOf s.ST), DT := decremented s.DT, ST := decremented s.ST }

/-- The state in which step 5 of a cycle executes: after the fetch advance (R92). -/
def State.fetched (s : State) : State := { s.timed with PC := s.PC + 2 }

/-! ## What holds in every reachable state -/

/-- The invariant: the stack's bound and the font region of R42, the bound of R25 on `PC` and on the
values that can be popped into it, and the canonical form of memory. -/
structure State.Inv (s : State) : Prop where
  stackBound   : s.stack.length ≤ 16
  stackEntries : ∀ a ∈ s.stack, a.toNat ≤ 0x10FE
  pcBound      : s.PC.toNat ≤ 0x10FE
  lowRegion    : ∀ a, a < 0x200 → s.byteAt a = resetByte s.font a
  memForm      : s.mem.wf s.font = true

/-- Parked: a jump to its own address, while `Running` (R97). -/
def State.Parked (s : State) : Prop :=
  s.mode = .running ∧ s.PC.toNat ≤ 0xFFE ∧ s.wordAtPC = 0x1000 ||| s.PC

/-- A safe run: every cycle ends with `Ok` (R96). -/
def SafeFor : Nat → State → Prop
  | 0, _ => True
  | k + 1, s => ∃ t, step s = .next t ∧ t.result = .ok ∧ SafeFor k t

/-- The state after `k` cycles; the driver invokes the next cycle whatever the result (R169). -/
def afterCycles : Nat → State → Option State
  | 0, s => some s
  | k + 1, s =>
    match step s with
    | .next t => afterCycles k t
    | _ => none

end Sys2Proof.Machine
end

