-- ==== Sys2Proof/Certificates/Slice0/Obligations.lean ====
section
/-! DEFINITION. The statements for the provers. Unless a docstring says otherwise, `s` is any state, reachable or not, with any
inputs; a frame `t = { s with ... }` says that every field not named is unchanged. Where a rule states a decision of the spec itself
(92_eei_decisions.md: reset values D8, memory errors D4, D5, D7, D17, write order D10, operand errors D11, D12, stack check D20, jump sum D27, sprite
bits D28), the statement follows the rule (log entries 8, 19 to 27). -/

open Sys2Proof Sys2Proof.Machine

/-! ## Reset and boot -/

/-- R41, R45: every piece of state after construction, the font table among it, for every `FONT_BASE` and `FONT_DATA`; and a program
loaded then changes its bytes only. `State.reset` is the construction with the open base and the default table of R40 (log entries 2, 3). -/
def Obligations.ResetLeavesConstructionValues : Prop :=
  State.reset = State.construct ⟨Config.fontBase, Config.defaultFontData⟩ ∧ Config.defaultFontData.toList = Config.fontTable ∧
  ∀ f : Config.Font,
    (State.construct f).font = f ∧
    (∀ r, (State.construct f).reg r = 0x00) ∧ (State.construct f).I = 0x0000 ∧ (State.construct f).PC = 0x200 ∧
    (State.construct f).DT = 0x00 ∧ (State.construct f).ST = 0x00 ∧ (State.construct f).stack = [] ∧
    (State.construct f).mode = .running ∧ (∀ X Y, (State.construct f).pixel X Y = false) ∧
    (∀ d < 16, ∀ r < 5, (State.construct f).byteAt (f.base.val + 5 * d + r) = f.data.toList.getD (5 * d + r) 0) ∧
    (∀ a, a < f.base.val ∨ f.base.val + 80 ≤ a → (State.construct f).byteAt a = 0x00) ∧
    ∀ bytes t, loadRom bytes (State.construct f) = .ok t → t = { State.construct f with mem := t.mem } ∧
      (∀ k < bytes.length, t.byteAt (0x200 + k) = bytes.getD k 0) ∧ MemKeptOutside 0x200 bytes.length (State.construct f) t

/-- R47, R165: `load_rom` fails exactly when the image does not fit, and then gives no new memory; otherwise it copies the image to 0x200
and changes nothing else. -/
def Obligations.LoadRomCopiesImageOrFails : Prop :=
  ∀ (bytes : List Byte) (s : State),
    (4096 < 0x200 + bytes.length → loadRom bytes s = .error (.romTooLarge bytes.length)) ∧
    (0x200 + bytes.length ≤ 4096 → ∃ t, loadRom bytes s = .ok t ∧ t = { s with mem := t.mem } ∧
      (∀ k < bytes.length, t.byteAt (0x200 + k) = bytes.getD k 0) ∧ MemKeptOutside 0x200 bytes.length s t)

/-- R180: with no program loaded, the first cycle, if its audio call succeeds, reads the word 0x0000 at 0x200 and raises
`UnhandledInstruction(0x0000)`, after the advance, whatever the font parameters are; the tone and the inputs of the cycle are the model's ports
(log entries 4 and 7). -/
def Obligations.EmptyMachineRaisesUnhandledZero : Prop :=
  ∀ (f : Config.Font) (u : List Inputs), ReachesFetch { State.construct f with upcoming := u } →
    ∃ t, step { State.construct f with upcoming := u } = .next t ∧ t.result = .err (.unhandledInstruction 0x0000) ∧
      t = { State.construct f with PC := 0x202, inputs := t.inputs, upcoming := u.tail, freeIdx := t.freeIdx, tone := some .stopBeep,
                                   result := t.result }

/-! ## Register file and memory -/

/-- R19, R156: the register-file port answers every index: the register for 0..15, `InvalidRegister(idx)` above, and a failing
access gives no new state. -/
def Obligations.RegisterPortChecksIndex : Prop :=
  ∀ (idx : Nat) (b : Byte) (s : State),
    (15 < idx → register idx s = .error (.invalidRegister idx) ∧ setRegister idx b s = .error (.invalidRegister idx)) ∧
    (∀ r : RegIdx, r.toNat = idx → register idx s = .ok (s.reg r) ∧
      ∃ t, setRegister idx b s = .ok t ∧ t = { s with V := t.V } ∧ t.reg r = b ∧ RegsKept [r] s t)

/-- R50, R52, R53: a byte read and a byte write, with their range and protection checks; a read gives the last value written. -/
def Obligations.ByteAccessChecksAndStores : Prop :=
  ∀ (a : Nat) (v : Byte) (s : State),
    (4096 ≤ a → memRead a s = .error (.addressOutOfRange a) ∧ memWrite a v s = .error (.addressOutOfRange a)) ∧
    (a < 4096 → memRead a s = .ok (s.byteAt a)) ∧
    (a < 0x200 → memWrite a v s = .error (.protectedWrite a)) ∧
    (0x200 ≤ a → a < 4096 → ∃ t, memWrite a v s = .ok t ∧ t = { s with mem := t.mem } ∧ memRead a t = .ok v ∧
      ∀ b, b ≠ a → t.byteAt b = s.byteAt b)

/-- R49, R51: the fetch read is big-endian, has no alignment condition, and reports the first address that does not exist. -/
def Obligations.WordReadIsBigEndian : Prop :=
  ∀ (a : Nat) (s : State),
    (4096 ≤ a → memReadWord a s = .error (.addressOutOfRange a)) ∧
    (a = 4095 → memReadWord a s = .error (.addressOutOfRange 4096)) ∧
    (a + 1 < 4096 → ∃ w, memReadWord a s = .ok w ∧ w.toNat = 256 * (s.byteAt a).toNat + (s.byteAt (a + 1)).toNat)

/-! ## Encoding -/

/-- Decoding the word of any instruction, with every operand at every value its field admits, gives the instruction back: no bit of an
encoding is dropped, the ignored `y` of `8xy6` and `8xyE` included (R70). -/
def Obligations.DecodeEncodeGivesInstr : Prop := ∀ i : Instr, decode (encode i) = .ok i

/-- Each instruction word has one meaning: encoding what a word decodes to gives the word back (R79: no field but `y` of `8xy6` and `8xyE` is
ignored, and that one is kept as an operand). -/
def Obligations.EncodeDecodeGivesWord : Prop := ∀ (w : Word) (i : Instr), decode w = .ok i → encode i = w

/-- R73, R74, R77, R78: exactly these words are unmatched, and the error carries the word. -/
def Obligations.UnmatchedWordsAreExact : Prop :=
  ∀ w : Word, (decode w = .error (.unmatched w) ↔
    (fieldP w = 0x0 ∧ w ≠ 0x00E0 ∧ w ≠ 0x00EE) ∨
    (fieldP w = 0x5 ∧ fieldN w ≠ 0) ∨
    (fieldP w = 0x8 ∧ fieldN w ∈ [0x8, 0x9, 0xA, 0xB, 0xC, 0xD, 0xF]) ∨
    (fieldP w = 0x9 ∧ fieldN w ≠ 0) ∨
    (fieldP w = 0xE ∧ fieldKk w ∉ [0x9E, 0xA1]) ∨
    (fieldP w = 0xF ∧ fieldKk w ∉ [0x07, 0x0A, 0x15, 0x18, 0x1E, 0x29, 0x33, 0x55, 0x65])) ∧
    ∀ e, decode w = .error e → e = .unmatched w

/-- R76: a word is an instruction exactly when it agrees with a row of the opcode table, and the row is its own instruction's. -/
def Obligations.DecodedWordsAreTheTablesWords : Prop :=
  (∀ w : Word, (∃ i, decode w = .ok i) ↔ WordWellFormed w) ∧ ∀ (w : Word) (i : Instr), decode w = .ok i → i.row.Accepts w

/-- R84: the decode examples of the spec. -/
def Obligations.DecodeExamplesOfTheSpec : Prop :=
  decode 0x8124 = .ok (.addReg 1 2) ∧ decode 0xD125 = .ok (.drw 1 2 5) ∧ decode 0xF233 = .ok (.ldBVx 2) ∧
  decode 0x8129 = .error (.unmatched 0x8129) ∧ decode 0x5121 = .error (.unmatched 0x5121) ∧
  decode 0x0123 = .error (.unmatched 0x0123) ∧ decode 0xA2F0 = .ok (.ldI 0x2F0) ∧ decode 0xE09E = .ok (.skp 0)

/-! ## The cycle -/

/-- A cycle runs the instruction it fetches: the inputs are presented, the tone is put out from the old `ST`, both timers are
decremented, `PC` is advanced by 2, and the step is what the instruction does in that state (R87, R89 to R93). -/
def Obligations.StepRunsTheDecodedInstruction : Prop :=
  ∀ (s : State) (i : Instr), Fetches s i → step s = exec i s.fetched

/-- A state prepared by `withFetchWord` runs the word's instruction in its next step, with no condition on the state: the host's way to
place a word (log entry 14) does what it says, and keeps every register. -/
def Obligations.PlacedWordIsExecutedNext : Prop :=
  ∀ (s : State) (w : Word) (i : Instr), decode w = .ok i →
    Fetches (s.withFetchWord 16 w.toNat) i ∧
    step (s.withFetchWord 16 w.toNat) = exec i (s.withFetchWord 16 w.toNat).fetched ∧
    ∀ r, (s.withFetchWord 16 w.toNat).reg r = s.reg r

/-- R91, R159: a fetch error leaves `PC` where it was; an unmatched word leaves it advanced; in both cases the tone and the timers of the
cycle stay, and nothing else changes. -/
def Obligations.FetchErrorAndUnmatchedWord : Prop :=
  ∀ s : State, ReachesFetch s →
    (4096 ≤ s.PC.toNat → step s = .next { s.timed with result := .err (.addressOutOfRange s.PC.toNat) }) ∧
    (s.PC.toNat = 4095 → step s = .next { s.timed with result := .err (.addressOutOfRange 4096) }) ∧
    (s.PC.toNat + 1 < 4096 → decode s.wordAtPC = .error (.unmatched s.wordAtPC) →
      step s = .next { s.fetched with result := .err (.unhandledInstruction s.wordAtPC) })

/-- R160, step 2: a failing audio call ends the cycle before the timers and the fetch. That the tone port still shows the signal is the
model's reading of R100 (log entry 12). -/
def Obligations.AudioFailureEndsTheCycle : Prop :=
  ∀ (s : State) (e : CollabError), s.mode = .running → s.nextInputs.audioError = some e →
    step s = .next { s.begun with tone := some (toneOf s.ST), result := .err (.collaboratorError e) }

/-- R88, R98: a waiting cycle does nothing but look for a key: no fetch, no timer, no tone, no `PC` change. With a key it writes the code and
returns to `Running`; a failing query leaves it waiting (R160). The first pressed key is the head of the list (log entry 10). -/
def Obligations.WaitingCycleOnlyLooksForAKey : Prop :=
  ∀ (s : State) (r : RegIdx), s.mode = .awaitingKey r →
    (∀ e, s.nextInputs.keyboardError = some e → step s = .next { s.begun with result := .err (.collaboratorError e) }) ∧
    (s.nextInputs.keyboardError = none → s.nextInputs.keysDown = [] → step s = .next s.begun) ∧
    (∀ k ks, s.nextInputs.keyboardError = none → s.nextInputs.keysDown = k :: ks →
      ∃ t, step s = .next t ∧ t = { s.begun with V := t.V, mode := .running } ∧ (t.reg r).toNat = k.toNat ∧ RegsKept [r] s t)

/-- R96, R97: no cycle refuses or stops; every cycle of every state ends in a next state, with `Ok` or an error (that an error is a next state is
the model's form, log entry 1). -/
def Obligations.EveryCycleEndsInAState : Prop := ∀ s : State, ∃ t, step s = .next t

/-- R89, R100: a `Running` cycle puts out `Beep` exactly when `ST` at its start is not 0, else `StopBeep`, whatever it executes and however
it ends (also when the audio call fails: log entry 12); a waiting cycle puts out nothing. -/
def Obligations.ToneFollowsSoundTimer : Prop :=
  ∀ s t : State, step s = .next t →
    (s.mode = .running → t.tone = some (toneOf s.ST)) ∧ (∀ r, s.mode = .awaitingKey r → t.tone = none)

/-- R29, R90, R98 over all instructions: after a cycle each timer is one less (never below 0) if the cycle passed its audio call, unless
that cycle executed the instruction that writes it; in every other cycle it is unchanged. -/
def Obligations.TimersCountRunningCycles : Prop :=
  ∀ s t : State, step s = .next t →
    (¬ ReachesFetch s → t.DT = s.DT ∧ t.ST = s.ST) ∧
    (ReachesFetch s → t.DT.toNat = s.DT.toNat - 1 ∨ ∃ x, Fetches s (.ldDtVx x) ∧ t.DT = s.reg x) ∧
    (ReachesFetch s → t.ST.toNat = s.ST.toNat - 1 ∨ ∃ x, Fetches s (.ldStVx x) ∧ t.ST = s.reg x)

/-! ## Control transfer -/

/-- R103, R109: the jumps set `PC` and change nothing else; the indexed sum is not masked. -/
def Obligations.JumpsSetPC : Prop :=
  Encodes 0xF000 0x1000 (fun w => .jp (fieldNnn w)) ∧ Encodes 0xF000 0xB000 (fun w => .jpV0 (fieldNnn w)) ∧
  ∀ (nnn : Lit12) (s : State),
    (∃ t, exec (.jp nnn) s = .next t ∧ t = { s with PC := t.PC, result := .ok } ∧ t.PC.toNat = nnn.toNat) ∧
    (∃ t, exec (.jpV0 nnn) s = .next t ∧ t = { s with PC := t.PC, result := .ok } ∧
      t.PC.toNat = nnn.toNat + (s.reg 0).toNat)

/-- R31, R104, R157: a call pushes the return address (`PC`, already advanced) and jumps; with 16 entries it raises `StackOverflow` and
changes nothing. -/
def Obligations.CallPushesReturnAddress : Prop :=
  Encodes 0xF000 0x2000 (fun w => .call (fieldNnn w)) ∧
  ∀ (nnn : Lit12) (s : State),
    (s.stack.length < 16 → ∃ t, exec (.call nnn) s = .next t ∧
      t = { s with stack := s.stack ++ [s.PC], PC := t.PC, result := .ok } ∧ t.PC.toNat = nnn.toNat) ∧
    (s.stack.length = 16 → exec (.call nnn) s = .next { s with result := .err .stackOverflow })

/-- R32, R102, R158: a return pops the top entry into `PC`; with an empty stack it raises `EmptyStack` and changes nothing. -/
def Obligations.ReturnPopsIntoPC : Prop :=
  Encodes 0xFFFF 0x00EE (fun _ => .ret) ∧
  ∀ s : State,
    (∀ below top, s.stack = below ++ [top] → exec .ret s = .next { s with stack := below, PC := top, result := .ok }) ∧
    (s.stack = [] → exec .ret s = .next { s with result := .err .emptyStack })

/-- A return undoes a call: executed in any later state with the stack the call left, it comes back to the call's return address and stack
(R102, R104, R112). -/
def Obligations.ReturnUndoesCall : Prop :=
  ∀ (nnn : Lit12) (s u : State), s.stack.length < 16 →
    ∃ t, exec (.call nnn) s = .next t ∧ (u.stack = t.stack →
      ∃ v, exec .ret u = .next v ∧ v.PC = s.PC ∧ v.stack = s.stack ∧ v.result = .ok)

/-- R105, R106: the immediate skips add 2 to the advanced `PC` when their condition holds, and change nothing else. -/
def Obligations.ImmediateSkips : Prop :=
  Encodes 0xF000 0x3000 (fun w => .seImm (fieldX w) (fieldKk w)) ∧ Encodes 0xF000 0x4000 (fun w => .sneImm (fieldX w) (fieldKk w)) ∧
  ∀ (x : RegIdx) (kk : Byte) (s : State),
    (∃ t, exec (.seImm x kk) s = .next t ∧ t = { s with PC := t.PC, result := .ok } ∧
      (s.reg x = kk → t.PC = s.PC + 2) ∧ (s.reg x ≠ kk → t.PC = s.PC)) ∧
    (∃ t, exec (.sneImm x kk) s = .next t ∧ t = { s with PC := t.PC, result := .ok } ∧
      (s.reg x ≠ kk → t.PC = s.PC + 2) ∧ (s.reg x = kk → t.PC = s.PC))

/-- R107, R108: the register skips, and the words with a low nibble that is not 0 are no skips. -/
def Obligations.RegisterSkips : Prop :=
  Encodes 0xF00F 0x5000 (fun w => .seReg (fieldX w) (fieldY w)) ∧ Encodes 0xF00F 0x9000 (fun w => .sneReg (fieldX w) (fieldY w)) ∧
  (∀ w : Word, fieldP w = 0x5 ∨ fieldP w = 0x9 → fieldN w ≠ 0 → decode w = .error (.unmatched w)) ∧
  ∀ (x y : RegIdx) (s : State),
    (∃ t, exec (.seReg x y) s = .next t ∧ t = { s with PC := t.PC, result := .ok } ∧
      (s.reg x = s.reg y → t.PC = s.PC + 2) ∧ (s.reg x ≠ s.reg y → t.PC = s.PC)) ∧
    (∃ t, exec (.sneReg x y) s = .next t ∧ t = { s with PC := t.PC, result := .ok } ∧
      (s.reg x ≠ s.reg y → t.PC = s.PC + 2) ∧ (s.reg x = s.reg y → t.PC = s.PC))

/-! ## Register loads and arithmetic -/

/-- R114, R115: the immediate load and add write their register only; the sum wraps and no flag is written, unless the register
itself is `VF`. -/
def Obligations.ImmediateLoadAndAdd : Prop :=
  Encodes 0xF000 0x6000 (fun w => .ldImm (fieldX w) (fieldKk w)) ∧ Encodes 0xF000 0x7000 (fun w => .addImm (fieldX w) (fieldKk w)) ∧
  ∀ (x : RegIdx) (kk : Byte) (s : State),
    (∃ t, exec (.ldImm x kk) s = .next t ∧ t = { s with V := t.V, result := .ok } ∧ t.reg x = kk ∧
      RegsKept [x] s t ∧ MemKept s t) ∧
    (∃ t, exec (.addImm x kk) s = .next t ∧ t = { s with V := t.V, result := .ok } ∧
      (t.reg x).toNat = ((s.reg x).toNat + kk.toNat) % 256 ∧ RegsKept [x] s t ∧ MemKept s t)

/-- R116 to R119: copy, OR, AND and XOR, bit by bit; only `Vx` is written, `VF` is not reset. -/
def Obligations.CopyAndLogic : Prop :=
  Encodes 0xF00F 0x8000 (fun w => .ldReg (fieldX w) (fieldY w)) ∧ Encodes 0xF00F 0x8001 (fun w => .orReg (fieldX w) (fieldY w)) ∧
  Encodes 0xF00F 0x8002 (fun w => .andReg (fieldX w) (fieldY w)) ∧ Encodes 0xF00F 0x8003 (fun w => .xorReg (fieldX w) (fieldY w)) ∧
  ∀ (x y : RegIdx) (s : State),
    (∃ t, exec (.ldReg x y) s = .next t ∧ t = { s with V := t.V, result := .ok } ∧ t.reg x = s.reg y ∧
      RegsKept [x] s t ∧ MemKept s t) ∧
    (∃ t, exec (.orReg x y) s = .next t ∧ t = { s with V := t.V, result := .ok } ∧
      (∀ k < 8, (t.reg x).getLsbD k = ((s.reg x).getLsbD k || (s.reg y).getLsbD k)) ∧ RegsKept [x] s t ∧ MemKept s t) ∧
    (∃ t, exec (.andReg x y) s = .next t ∧ t = { s with V := t.V, result := .ok } ∧
      (∀ k < 8, (t.reg x).getLsbD k = ((s.reg x).getLsbD k && (s.reg y).getLsbD k)) ∧ RegsKept [x] s t ∧ MemKept s t) ∧
    (∃ t, exec (.xorReg x y) s = .next t ∧ t = { s with V := t.V, result := .ok } ∧
      (∀ k < 8, (t.reg x).getLsbD k = ((s.reg x).getLsbD k ^^ (s.reg y).getLsbD k)) ∧ RegsKept [x] s t ∧ MemKept s t)

/-- R120: the sum modulo 256 in `Vx`, then the carry in `VF`, which stays when `Vx` is `VF` itself. -/
def Obligations.AddSetsSumThenCarry : Prop :=
  Encodes 0xF00F 0x8004 (fun w => .addReg (fieldX w) (fieldY w)) ∧
  ∀ (x y : RegIdx) (s : State),
    ∃ t, exec (.addReg x y) s = .next t ∧ t = { s with V := t.V, result := .ok } ∧ RegsKept [x, 15] s t ∧ MemKept s t ∧
      (x ≠ 15 → (t.reg x).toNat = ((s.reg x).toNat + (s.reg y).toNat) % 256) ∧
      (0xFF < (s.reg x).toNat + (s.reg y).toNat → t.reg 15 = 0x01) ∧
      ((s.reg x).toNat + (s.reg y).toNat ≤ 0xFF → t.reg 15 = 0x00)

/-- R121, R123: the flag is the strict comparison, then the difference modulo 256 is written, which stays when `Vx` is `VF` itself. -/
def Obligations.SubtractionsSetFlagThenDifference : Prop :=
  Encodes 0xF00F 0x8005 (fun w => .subReg (fieldX w) (fieldY w)) ∧ Encodes 0xF00F 0x8007 (fun w => .subnReg (fieldX w) (fieldY w)) ∧
  ∀ (x y : RegIdx) (s : State),
    (∃ t, exec (.subReg x y) s = .next t ∧ t = { s with V := t.V, result := .ok } ∧ RegsKept [x, 15] s t ∧ MemKept s t ∧
      (t.reg x).toNat = ((s.reg x).toNat + 256 - (s.reg y).toNat) % 256 ∧
      (x ≠ 15 → (s.reg y).toNat < (s.reg x).toNat → t.reg 15 = 0x01) ∧
      (x ≠ 15 → (s.reg x).toNat ≤ (s.reg y).toNat → t.reg 15 = 0x00)) ∧
    (∃ t, exec (.subnReg x y) s = .next t ∧ t = { s with V := t.V, result := .ok } ∧ RegsKept [x, 15] s t ∧ MemKept s t ∧
      (t.reg x).toNat = ((s.reg y).toNat + 256 - (s.reg x).toNat) % 256 ∧
      (x ≠ 15 → (s.reg x).toNat < (s.reg y).toNat → t.reg 15 = 0x01) ∧
      (x ≠ 15 → (s.reg y).toNat ≤ (s.reg x).toNat → t.reg 15 = 0x00))

/-- R122, R124: the flag is the bit shifted out, then the shifted `Vx` is written, whatever `y` is. The flag of the left shift is bit 7, which is
also what the reference's formula with the mask 0xA0 gives (conflict C2). -/
def Obligations.ShiftsSetFlagThenResult : Prop :=
  Encodes 0xF00F 0x8006 (fun w => .shr (fieldX w) (fieldY w)) ∧ Encodes 0xF00F 0x800E (fun w => .shl (fieldX w) (fieldY w)) ∧
  ∀ (x y : RegIdx) (s : State),
    (∃ t, exec (.shr x y) s = .next t ∧ t = { s with V := t.V, result := .ok } ∧ RegsKept [x, 15] s t ∧ MemKept s t ∧
      (t.reg x).toNat = (s.reg x).toNat / 2 ∧ (x ≠ 15 → (t.reg 15).toNat = (s.reg x).toNat % 2)) ∧
    (∃ t, exec (.shl x y) s = .next t ∧ t = { s with V := t.V, result := .ok } ∧ RegsKept [x, 15] s t ∧ MemKept s t ∧
      (t.reg x).toNat = 2 * (s.reg x).toNat % 256 ∧ (x ≠ 15 → (t.reg 15).toNat = (s.reg x).toNat / 128) ∧
      (x ≠ 15 → t.reg 15 = (s.reg x &&& 0xA0) >>> 7))

/-- R23: what `VF` keeps when it is the destination: the carry for `8xy4`, the arithmetic result for the other four. -/
def Obligations.LastWriteStaysInVF : Prop :=
  ∀ (y : RegIdx) (s : State),
    (∃ t, exec (.addReg 15 y) s = .next t ∧ (t.reg 15).toNat = ((s.reg 15).toNat + (s.reg y).toNat) / 256) ∧
    (∃ t, exec (.subReg 15 y) s = .next t ∧ (t.reg 15).toNat = ((s.reg 15).toNat + 256 - (s.reg y).toNat) % 256) ∧
    (∃ t, exec (.shr 15 y) s = .next t ∧ (t.reg 15).toNat = (s.reg 15).toNat / 2) ∧
    (∃ t, exec (.subnReg 15 y) s = .next t ∧ (t.reg 15).toNat = ((s.reg y).toNat + 256 - (s.reg 15).toNat) % 256) ∧
    (∃ t, exec (.shl 15 y) s = .next t ∧ (t.reg 15).toNat = 2 * (s.reg 15).toNat % 256)

/-- R127: the cycle's random byte under the mask, for every value of that byte (the model's port, log entry 4). -/
def Obligations.RandomByteUnderMask : Prop :=
  Encodes 0xF000 0xC000 (fun w => .rnd (fieldX w) (fieldKk w)) ∧
  ∀ (x : RegIdx) (kk : Byte) (s : State),
    ∃ t, exec (.rnd x kk) s = .next t ∧ t = { s with V := t.V, result := .ok } ∧
      (∀ k < 8, (t.reg x).getLsbD k = (s.inputs.rnd.getLsbD k && kk.getLsbD k)) ∧ RegsKept [x] s t ∧ MemKept s t

/-! ## Index register and memory instructions -/

/-- R129, R130: the two plain writes of `I`; the sum wraps at 16 bits and writes no flag. -/
def Obligations.IndexLoadAndAdd : Prop :=
  Encodes 0xF000 0xA000 (fun w => .ldI (fieldNnn w)) ∧ Encodes 0xF0FF 0xF01E (fun w => .addIVx (fieldX w)) ∧
  (∀ (nnn : Lit12) (s : State),
    ∃ t, exec (.ldI nnn) s = .next t ∧ t = { s with I := t.I, result := .ok } ∧ t.I.toNat = nnn.toNat) ∧
  ∀ (x : RegIdx) (s : State),
    ∃ t, exec (.addIVx x) s = .next t ∧ t = { s with I := t.I, result := .ok } ∧
      t.I.toNat = (s.I.toNat + (s.reg x).toNat) % 65536

/-- R131, R163: the glyph address for a digit up to 15, for every `FONT_BASE`, and `InvalidGlyph` with `I` unchanged above. -/
def Obligations.GlyphAddressOrInvalidGlyph : Prop :=
  Encodes 0xF0FF 0xF029 (fun w => .ldFVx (fieldX w)) ∧
  ∀ (x : RegIdx) (s : State),
    ((s.reg x).toNat ≤ 15 → ∃ t, exec (.ldFVx x) s = .next t ∧ t = { s with I := t.I, result := .ok } ∧
      t.I.toNat = s.font.base.val + 5 * (s.reg x).toNat) ∧
    (15 < (s.reg x).toNat → exec (.ldFVx x) s = .next { s with result := .err (.invalidGlyph (s.reg x)) })

/-- R132: the three decimal digits at `I`, `I+1`, `I+2`; at the first address that cannot be written the error is raised, and the
digits before it stay written. -/
def Obligations.BcdStoresThreeDigits : Prop :=
  Encodes 0xF0FF 0xF033 (fun w => .ldBVx (fieldX w)) ∧
  ∀ (x : RegIdx) (s : State),
    (0x200 ≤ s.I.toNat → s.I.toNat + 2 < 4096 → ∃ t, exec (.ldBVx x) s = .next t ∧ t = { s with mem := t.mem, result := .ok } ∧
      (t.byteAt s.I.toNat).toNat = (s.reg x).toNat / 100 ∧
      (t.byteAt (s.I.toNat + 1)).toNat = (s.reg x).toNat / 10 % 10 ∧
      (t.byteAt (s.I.toNat + 2)).toNat = (s.reg x).toNat % 10 ∧ MemKeptOutside s.I.toNat 3 s t) ∧
    (s.I.toNat < 0x200 → exec (.ldBVx x) s = .next { s with result := .err (.protectedWrite s.I.toNat) }) ∧
    (4096 ≤ s.I.toNat → exec (.ldBVx x) s = .next { s with result := .err (.addressOutOfRange s.I.toNat) }) ∧
    (s.I.toNat < 4096 → 4096 ≤ s.I.toNat + 2 → ∃ t, exec (.ldBVx x) s = .next t ∧
      t = { s with mem := t.mem, result := .err (.addressOutOfRange 4096) } ∧
      (t.byteAt s.I.toNat).toNat = (s.reg x).toNat / 100 ∧
      (s.I.toNat + 1 < 4096 → (t.byteAt (s.I.toNat + 1)).toNat = (s.reg x).toNat / 10 % 10) ∧
      MemKeptOutside s.I.toNat (4096 - s.I.toNat) s t)

/-- R133: `V0..Vx` in memory from `I` on; at the first address that cannot be written the error is raised, and the bytes before
it stay written. -/
def Obligations.BlockStoreWritesRegisters : Prop :=
  Encodes 0xF0FF 0xF055 (fun w => .ldMemVx (fieldX w)) ∧
  ∀ (x : RegIdx) (s : State),
    (0x200 ≤ s.I.toNat → s.I.toNat + x.toNat < 4096 → ∃ t, exec (.ldMemVx x) s = .next t ∧
      t = { s with mem := t.mem, result := .ok } ∧ (∀ r : RegIdx, r.toNat ≤ x.toNat → t.byteAt (s.I.toNat + r.toNat) = s.reg r) ∧
      MemKeptOutside s.I.toNat (x.toNat + 1) s t) ∧
    (s.I.toNat < 0x200 → exec (.ldMemVx x) s = .next { s with result := .err (.protectedWrite s.I.toNat) }) ∧
    (4096 ≤ s.I.toNat → exec (.ldMemVx x) s = .next { s with result := .err (.addressOutOfRange s.I.toNat) }) ∧
    (0x200 ≤ s.I.toNat → s.I.toNat < 4096 → 4096 ≤ s.I.toNat + x.toNat → ∃ t, exec (.ldMemVx x) s = .next t ∧
      t = { s with mem := t.mem, result := .err (.addressOutOfRange 4096) } ∧
      (∀ r : RegIdx, r.toNat ≤ x.toNat → s.I.toNat + r.toNat < 4096 → t.byteAt (s.I.toNat + r.toNat) = s.reg r) ∧
      MemKeptOutside s.I.toNat (4096 - s.I.toNat) s t)

/-- R134: `V0..Vx` from memory from `I` on, the low region included; at the first address that does not exist the error is raised, and the
registers before it stay loaded. -/
def Obligations.BlockLoadReadsRegisters : Prop :=
  Encodes 0xF0FF 0xF065 (fun w => .ldVxMem (fieldX w)) ∧
  ∀ (x : RegIdx) (s : State),
    (s.I.toNat + x.toNat < 4096 → ∃ t, exec (.ldVxMem x) s = .next t ∧ t = { s with V := t.V, result := .ok } ∧
      (∀ r : RegIdx, r.toNat ≤ x.toNat → t.reg r = s.byteAt (s.I.toNat + r.toNat)) ∧
      (∀ r : RegIdx, x.toNat < r.toNat → t.reg r = s.reg r) ∧ MemKept s t) ∧
    (4096 ≤ s.I.toNat → exec (.ldVxMem x) s = .next { s with result := .err (.addressOutOfRange s.I.toNat) }) ∧
    (s.I.toNat < 4096 → 4096 ≤ s.I.toNat + x.toNat → ∃ t, exec (.ldVxMem x) s = .next t ∧
      t = { s with V := t.V, result := .err (.addressOutOfRange 4096) } ∧
      (∀ r : RegIdx, r.toNat ≤ x.toNat → s.I.toNat + r.toNat < 4096 → t.reg r = s.byteAt (s.I.toNat + r.toNat)) ∧
      (∀ r : RegIdx, x.toNat < r.toNat ∨ 4096 ≤ s.I.toNat + r.toNat → t.reg r = s.reg r) ∧ MemKept s t)

/-- A word stored by `Fx55` is the word a later fetch reads: fetch is coherent with stores, with no fence (R62, R185). -/
def Obligations.StoredWordIsFetched : Prop :=
  ∀ (x : RegIdx) (s : State), 1 ≤ x.toNat → 0x200 ≤ s.I.toNat → s.I.toNat + x.toNat < 4096 →
    ∃ t, exec (.ldMemVx x) s = .next t ∧ memReadWord s.I.toNat t = .ok (wordOfBytes (s.reg 0) (s.reg 1))

/-! ## Display -/

/-- R137: every pixel is unset and nothing else changes. -/
def Obligations.ClearUnsetsEveryPixel : Prop :=
  Encodes 0xFFFF 0x00E0 (fun _ => .cls) ∧
  ∀ s : State, ∃ t, exec .cls s = .next t ∧ t = { s with FB := t.FB, result := .ok } ∧ (∀ X Y, t.pixel X Y = false) ∧ MemKept s t

/-- R138 to R144: a draw toggles exactly the pixels of the sprite's 1 bits, wrapped on both axes; `VF` is 1 exactly when a pixel went from set to
unset, else 0; when a row's byte does not exist the error is raised, with the rows before it drawn and `VF` as they left it. The coordinates are the
registers before `VF` is cleared. -/
def Obligations.DrawXorsTheWrappedSprite : Prop :=
  Encodes 0xF000 0xD000 (fun w => .drw (fieldX w) (fieldY w) (fieldN w)) ∧
  ∀ (x y : RegIdx) (n : RowCount) (s : State),
    (n = 0 ∨ s.I.toNat + n.toNat ≤ 4096 → ∃ t, exec (.drw x y n) s = .next t ∧
      t = { s with V := t.V, FB := t.FB, result := .ok } ∧ RegsKept [15] s t ∧ MemKept s t ∧
      (∀ X Y, t.pixel X Y ≠ s.pixel X Y ↔ SpriteBit s (s.reg x) (s.reg y) n.toNat X Y) ∧
      (Collision s t → t.reg 15 = 0x01) ∧ (¬ Collision s t → t.reg 15 = 0x00)) ∧
    (n ≠ 0 → 4096 < s.I.toNat + n.toNat → ∃ t, exec (.drw x y n) s = .next t ∧
      t = { s with V := t.V, FB := t.FB, result := .err (.addressOutOfRange (max s.I.toNat 4096)) } ∧
      RegsKept [15] s t ∧ MemKept s t ∧
      (∀ X Y, t.pixel X Y ≠ s.pixel X Y ↔ SpriteBit s (s.reg x) (s.reg y) (4096 - s.I.toNat) X Y) ∧
      (Collision s t → t.reg 15 = 0x01) ∧ (¬ Collision s t → t.reg 15 = 0x00))

/-- Drawing the same sprite at the same place a second time restores every pixel (the document's erase example, R138); the coordinates are in
registers other than `VF`, which the first draw overwrites. -/
def Obligations.DrawingTwiceRestoresPixels : Prop :=
  ∀ (x y : RegIdx) (n : RowCount) (s : State), x ≠ 15 → y ≠ 15 → s.I.toNat + n.toNat ≤ 4096 →
    ∃ t u, exec (.drw x y n) s = .next t ∧ exec (.drw x y n) t = .next u ∧ ∀ X Y, u.pixel X Y = s.pixel X Y

/-! ## Keys and timers -/

/-- R146, R147, R164: the key skips test the level of the key named by `Vx` in the cycle's snapshot; a value above 15 raises `InvalidKey` before
the query, and a failing query raises the keyboard's error; neither skips. -/
def Obligations.KeySkips : Prop :=
  Encodes 0xF0FF 0xE09E (fun w => .skp (fieldX w)) ∧ Encodes 0xF0FF 0xE0A1 (fun w => .sknp (fieldX w)) ∧
  ∀ (x : RegIdx) (s : State),
    (15 < (s.reg x).toNat → exec (.skp x) s = .next { s with result := .err (.invalidKey (s.reg x)) } ∧
      exec (.sknp x) s = .next { s with result := .err (.invalidKey (s.reg x)) }) ∧
    (∀ e, (s.reg x).toNat ≤ 15 → s.inputs.keyboardError = some e →
      exec (.skp x) s = .next { s with result := .err (.collaboratorError e) } ∧
      exec (.sknp x) s = .next { s with result := .err (.collaboratorError e) }) ∧
    (∀ k : Key, (s.reg x).toNat = k.toNat → s.inputs.keyboardError = none → k ∈ s.inputs.keysDown →
      exec (.skp x) s = .next { s with PC := s.PC + 2, result := .ok } ∧ exec (.sknp x) s = .next { s with result := .ok }) ∧
    (∀ k : Key, (s.reg x).toNat = k.toNat → s.inputs.keyboardError = none → k ∉ s.inputs.keysDown →
      exec (.skp x) s = .next { s with result := .ok } ∧ exec (.sknp x) s = .next { s with PC := s.PC + 2, result := .ok })

/-- R148, R149, R150 at the level of a whole cycle: `Fx07` reads the timer after this cycle's decrement; `Fx15` and `Fx18` leave the written
value undecremented, and the tone of the cycle comes from the old `ST`; the first decrement of the written `DT` is in the next cycle that comes to
a fetch, and the next cycle's tone comes from the written `ST`. -/
def Obligations.TimerMovesInACycle : Prop :=
  Encodes 0xF0FF 0xF007 (fun w => .ldVxDt (fieldX w)) ∧ Encodes 0xF0FF 0xF015 (fun w => .ldDtVx (fieldX w)) ∧
  Encodes 0xF0FF 0xF018 (fun w => .ldStVx (fieldX w)) ∧
  ∀ (x : RegIdx) (s : State),
    (Fetches s (.ldVxDt x) → ∃ t, step s = .next t ∧ t = { s.fetched with V := t.V } ∧ (t.reg x).toNat = s.DT.toNat - 1 ∧
      RegsKept [x] s t ∧ MemKept s t) ∧
    (Fetches s (.ldDtVx x) → ∃ t, step s = .next t ∧ t = { s.fetched with DT := s.reg x } ∧
      ∀ u, ReachesFetch t → step t = .next u →
        u.DT.toNat = (s.reg x).toNat - 1 ∨ ∃ y, Fetches t (.ldDtVx y) ∧ u.DT = t.reg y) ∧
    (Fetches s (.ldStVx x) → ∃ t, step s = .next t ∧ t = { s.fetched with ST := s.reg x } ∧ t.tone = some (toneOf s.ST) ∧
      ∀ u, ReachesFetch t → step t = .next u → u.tone = some (toneOf (s.reg x)))

/-- The three timer moves complete in every state: `Fx07` writes its register only, `Fx15` and `Fx18` their timer only (R148 to R150). -/
def Obligations.TimerMovesComplete : Prop :=
  ∀ (x : RegIdx) (s : State),
    (∃ t, exec (.ldVxDt x) s = .next t ∧ t = { s with V := t.V, result := .ok } ∧ t.reg x = s.DT ∧ RegsKept [x] s t ∧ MemKept s t) ∧
    (∃ t, exec (.ldDtVx x) s = .next t ∧ t = { s with DT := t.DT, result := .ok } ∧ t.DT = s.reg x ∧ RegsKept [] s t ∧ MemKept s t) ∧
    (∃ t, exec (.ldStVx x) s = .next t ∧ t = { s with ST := t.ST, result := .ok } ∧ t.ST = s.reg x ∧ RegsKept [] s t ∧ MemKept s t)

/-- R151: `Fx0A` only enters the wait; and over two cycles, the first key is taken at the earliest in the next cycle, while `PC` stays after the
`Fx0A` and both timers stay as the first cycle left them (R187); a next cycle without a key changes nothing. -/
def Obligations.KeyWaitTakesTheNextCyclesKey : Prop :=
  Encodes 0xF0FF 0xF00A (fun w => .ldVxK (fieldX w)) ∧
  (∀ (x : RegIdx) (s : State), exec (.ldVxK x) s = .next { s with mode := .awaitingKey x, result := .ok }) ∧
  ∀ (x : RegIdx) (s : State), Fetches s (.ldVxK x) →
    ∃ t, step s = .next t ∧ t = { s.fetched with mode := .awaitingKey x } ∧
      (t.nextInputs.keyboardError = none → t.nextInputs.keysDown = [] → step t = .next t.begun) ∧
      ∀ k ks, t.nextInputs.keyboardError = none → t.nextInputs.keysDown = k :: ks →
        ∃ u, step t = .next u ∧ u = { t.begun with V := u.V, mode := .running } ∧ (u.reg x).toNat = k.toNat ∧
          RegsKept [x] s u ∧ u.PC = s.PC + 2 ∧ u.DT = t.DT ∧ u.ST = t.ST ∧ u.tone = none

/-! ## Rules of the whole machine -/

/-- R22, over all instructions: `VF` changes only in the six instructions that write it as a flag, or as an ordinary destination. -/
def Obligations.FlagRegisterWriters : Prop :=
  ∀ (i : Instr) (s t : State), exec i s = .next t → t.reg 15 ≠ s.reg 15 →
    (∃ x y, i = .addReg x y ∨ i = .subReg x y ∨ i = .shr x y ∨ i = .subnReg x y ∨ i = .shl x y) ∨
    (∃ x y n, i = .drw x y n) ∨
    (∃ kk, i = .ldImm 15 kk ∨ i = .addImm 15 kk ∨ i = .rnd 15 kk) ∨
    (∃ y, i = .ldReg 15 y ∨ i = .orReg 15 y ∨ i = .andReg 15 y ∨ i = .xorReg 15 y) ∨
    i = .ldVxDt 15 ∨ i = .ldVxMem 15

/-- R26, R33, R36, R48, R112, over all instructions: which instruction can change `I`, the mode, the framebuffer, memory, the stack; and none changes
the font parameters, the inputs or the tone. -/
def Obligations.EachStateHasItsWriters : Prop :=
  ∀ (i : Instr) (s t : State), exec i s = .next t →
    (t.I ≠ s.I → (∃ nnn, i = .ldI nnn) ∨ ∃ x, i = .addIVx x ∨ i = .ldFVx x) ∧
    (t.mode ≠ s.mode → ∃ x, i = .ldVxK x) ∧
    (t.FB ≠ s.FB → i = .cls ∨ ∃ x y n, i = .drw x y n) ∧
    (t.mem ≠ s.mem → ∃ x, i = .ldBVx x ∨ i = .ldMemVx x) ∧
    (t.stack ≠ s.stack → i = .ret ∨ ∃ nnn, i = .call nnn) ∧
    (t.DT ≠ s.DT → ∃ x, i = .ldDtVx x) ∧ (t.ST ≠ s.ST → ∃ x, i = .ldStVx x) ∧
    t.font = s.font ∧ t.inputs = s.inputs ∧ t.upcoming = s.upcoming ∧ t.freeIdx = s.freeIdx ∧ t.tone = s.tone

/-- R25, over whole cycles: `PC` changes only by the advance, a skip, a jump, a call or a return. -/
def Obligations.PCChangesOnlyByTheseInstructions : Prop :=
  ∀ s t : State, step s = .next t →
    t.PC = s.PC ∨ t.PC = s.PC + 2 ∨
    (t.PC = s.PC + 4 ∧ ∃ i, Fetches s i ∧ ∃ x y kk, i = .seImm x kk ∨ i = .sneImm x kk ∨ i = .seReg x y ∨ i = .sneReg x y ∨
      i = .skp x ∨ i = .sknp x) ∨
    (∃ nnn, (Fetches s (.jp nnn) ∨ Fetches s (.call nnn)) ∧ t.PC.toNat = nnn.toNat) ∨
    (∃ nnn, Fetches s (.jpV0 nnn) ∧ t.PC.toNat = nnn.toNat + (s.reg 0).toNat) ∨
    (Fetches s .ret ∧ s.stack.getLast? = some t.PC)

/-- R33, R176: `AwaitingKey` is entered only by `Fx0A`, with its register, and left only in a cycle whose snapshot has a pressed key. -/
def Obligations.WaitIsEnteredAndLeftOnlySo : Prop :=
  ∀ s t : State, step s = .next t →
    (∀ r, s.mode = .running → t.mode = .awaitingKey r → Fetches s (.ldVxK r)) ∧
    (∀ r, s.mode = .awaitingKey r → t.mode ≠ s.mode → t.mode = .running ∧ s.nextInputs.keysDown ≠ [])

/-- R44, R53: no cycle of any state changes a byte of the low region or a font parameter, so the font is never mutated. -/
def Obligations.LowRegionIsNeverWritten : Prop :=
  ∀ s t : State, step s = .next t → t.font = s.font ∧ ∀ a < 0x200, t.byteAt a = s.byteAt a

/-- R155, R21: which error a cycle can report, and when: the numbers of the table's rows, with what was recorded. `InvalidRegister` and
`RomTooLarge` are reported by no cycle. -/
def Obligations.ErrorsHaveTheirCauses : Prop :=
  ∀ (s t : State) (e : CoreError), step s = .next t → t.result = .err e →
    (e = .stackOverflow ∧ ∃ nnn, Fetches s (.call nnn) ∧ 16 ≤ s.stack.length) ∨
    (e = .emptyStack ∧ Fetches s .ret ∧ s.stack = []) ∨
    (e = .unhandledInstruction s.wordAtPC ∧ ReachesFetch s ∧ decode s.wordAtPC = .error (.unmatched s.wordAtPC)) ∨
    (∃ c, e = .collaboratorError c ∧ s.mode = .running ∧ s.nextInputs.audioError = some c) ∨
    (∃ c, e = .collaboratorError c ∧ s.nextInputs.keyboardError = some c ∧
      ((∃ r, s.mode = .awaitingKey r) ∨ ∃ x, Fetches s (.skp x) ∨ Fetches s (.sknp x))) ∨
    (∃ a, e = .addressOutOfRange a ∧ 4096 ≤ a ∧ ReachesFetch s ∧ (4096 ≤ s.PC.toNat + 1 ∨
      ∃ x, Fetches s (.ldBVx x) ∨ Fetches s (.ldMemVx x) ∨ Fetches s (.ldVxMem x) ∨ ∃ y n, Fetches s (.drw x y n))) ∨
    (e = .protectedWrite s.I.toNat ∧ s.I.toNat < 0x200 ∧ ∃ x, Fetches s (.ldBVx x) ∨ Fetches s (.ldMemVx x)) ∨
    (∃ x, e = .invalidGlyph (s.reg x) ∧ 15 < (s.reg x).toNat ∧ Fetches s (.ldFVx x)) ∨
    (∃ x, e = .invalidKey (s.reg x) ∧ 15 < (s.reg x).toNat ∧ (Fetches s (.skp x) ∨ Fetches s (.sknp x)))

/-- R166, R167: an error changes no mode, stack, `I` or font parameter; after an error of step 5 `PC` is the word's address + 2, and after an
error before it `PC` is unchanged. -/
def Obligations.ErrorsArePrecise : Prop :=
  ∀ (s t : State) (e : CoreError), step s = .next t → t.result = .err e →
    t.mode = s.mode ∧ t.stack = s.stack ∧ t.I = s.I ∧ t.font = s.font ∧
    (ReachesFetch s → s.PC.toNat + 1 < 4096 → t.PC = s.PC + 2) ∧
    (¬ ReachesFetch s ∨ 4096 ≤ s.PC.toNat + 1 → t.PC = s.PC)

/-- R97: a parked state repeats for ever, with no change but the timers, the tone and the cycle's ports, as long as no audio call fails: for
every `k` and every list of inputs for `k` cycles. After `k` cycles each timer is `k` less, never below 0. -/
def Obligations.ParkedStateRepeats : Prop :=
  ∀ (k : Nat) (s : State), s.Parked → k ≤ s.upcoming.length → (∀ i ∈ s.upcoming.take k, i.audioError = none) →
    ∃ t, afterCycles k s = some t ∧ t.Parked ∧ t.DT.toNat = s.DT.toNat - k ∧ t.ST.toNat = s.ST.toNat - k ∧
      t = { s with DT := t.DT, ST := t.ST, inputs := t.inputs, upcoming := t.upcoming, freeIdx := t.freeIdx,
                   tone := t.tone, result := t.result } ∧ SafeFor k s

/-- The invariant holds after construction (R30, R41, R42), for every `FONT_BASE` and `FONT_DATA`; `State.reset` is one of these states. -/
def Obligations.ResetMeetsTheInvariant : Prop := State.reset.Inv ∧ ∀ f : Config.Font, (State.construct f).Inv

/-- R25, R42: every cycle keeps the invariant: the stack's bound, the bound 0x10FE on `PC` and the stack entries (so `PC` never wraps), the low region as
constructed, and the canonical form of memory, which is the model's own. -/
def Obligations.EveryCycleKeepsTheInvariant : Prop := ∀ s t : State, s.Inv → step s = .next t → t.Inv

/-- The invariant survives loading a program, so it holds of every run of a loaded program (R42, R47). -/
def Obligations.LoadRomKeepsTheInvariant : Prop := ∀ (bytes : List Byte) (s t : State), s.Inv → loadRom bytes s = .ok t → t.Inv

/-- R40, R46: the glyph of a digit is drawn from `FONT_DATA`, whatever these bytes and `FONT_BASE` are: `Fx29` and then a draw of 5 rows toggle exactly
the 1 bits of the five bytes at `5*d`. The invariant says that the low region is as constructed. -/
def Obligations.GlyphIsDrawnFromFontData : Prop :=
  ∀ (x y z : RegIdx) (s : State), s.Inv → (s.reg z).toNat ≤ 15 →
    ∃ t u, exec (.ldFVx z) s = .next t ∧ exec (.drw x y 5) t = .next u ∧ u.result = .ok ∧
      ∀ X Y, u.pixel X Y ≠ s.pixel X Y ↔ ∃ r < 5, ∃ c < 8, X.val = ((s.reg x).toNat + c) % 64 ∧ Y.val = ((s.reg y).toNat + r) % 32 ∧
        (s.font.data.toList.getD (5 * (s.reg z).toNat + r) 0).getLsbD (7 - c) = true

/-- R97, for every step of every parked state, with any inputs, also when the audio call fails: the state after is parked, and only the
timers, the tone and the model's port fields can differ. -/
def Obligations.EveryCycleKeepsParked : Prop :=
  ∀ s t : State, s.Parked → step s = .next t → t.Parked ∧
    t = { s with DT := t.DT, ST := t.ST, inputs := t.inputs, upcoming := t.upcoming, freeIdx := t.freeIdx, tone := t.tone,
                 result := t.result }
end

