-- ==== Sys2Proof/Laws/Decode.lean ====
section
/-! SUPPORT. The fields of an assembled word, a word reassembled from its fields, the bytes of a word, and what a mask says about
the fields. -/

namespace Sys2Proof

/-! ## Bits of the three word shapes -/

theorem getLsbD_pnnn (p : BitVec 4) (nnn : Lit12) (i : Nat) :
    (p ++ nnn : Word).getLsbD i = if i < 12 then nnn.getLsbD i else p.getLsbD (i - 12) := by
  have h : BitVec.getLsbD (w := 4 + 12) (p ++ nnn) i = if i < 12 then nnn.getLsbD i else p.getLsbD (i - 12) := by
    simp only [BitVec.getLsbD_append]
  exact h

theorem getLsbD_pxkk (p x : BitVec 4) (kk : Byte) (i : Nat) :
    (p ++ x ++ kk : Word).getLsbD i =
      if i < 8 then kk.getLsbD i else if i < 12 then x.getLsbD (i - 8) else p.getLsbD (i - 12) := by
  have h : BitVec.getLsbD (w := 4 + 4 + 8) (p ++ x ++ kk) i =
      if i < 8 then kk.getLsbD i else if i < 12 then x.getLsbD (i - 8) else p.getLsbD (i - 12) := by
    simp only [BitVec.getLsbD_append, show i - 8 < 4 ↔ i < 12 by omega, show i - 8 - 4 = i - 12 by omega]
  exact h

theorem getLsbD_pxyn (p x y n : BitVec 4) (i : Nat) :
    (p ++ x ++ y ++ n : Word).getLsbD i =
      if i < 4 then n.getLsbD i else if i < 8 then y.getLsbD (i - 4)
      else if i < 12 then x.getLsbD (i - 8) else p.getLsbD (i - 12) := by
  have h : BitVec.getLsbD (w := 4 + 4 + 4 + 4) (p ++ x ++ y ++ n) i =
      if i < 4 then n.getLsbD i else if i < 8 then y.getLsbD (i - 4)
      else if i < 12 then x.getLsbD (i - 8) else p.getLsbD (i - 12) := by
    simp only [BitVec.getLsbD_append, show i - 4 < 4 ↔ i < 8 by omega, show i - 4 - 4 = i - 8 by omega,
      show i - 8 < 4 ↔ i < 12 by omega, show i - 8 - 4 = i - 12 by omega]
  exact h

/-! ## Fields of the three word shapes -/

@[simp] theorem fieldP_pnnn (p : BitVec 4) (nnn : Lit12) : fieldP (p ++ nnn) = p := by
  refine BitVec.eq_of_getLsbD_eq fun i hi => ?_
  rw [fieldP, BitVec.getLsbD_extractLsb', getLsbD_pnnn, if_neg (by omega), Nat.add_sub_cancel_left]
  simp [hi]

@[simp] theorem fieldNnn_pnnn (p : BitVec 4) (nnn : Lit12) : fieldNnn (p ++ nnn) = nnn := by
  refine BitVec.eq_of_getLsbD_eq fun i hi => ?_
  rw [fieldNnn, BitVec.getLsbD_extractLsb', getLsbD_pnnn, if_pos (by omega), Nat.zero_add]
  simp [hi]

@[simp] theorem fieldP_pxkk (p x : BitVec 4) (kk : Byte) : fieldP (p ++ x ++ kk) = p := by
  refine BitVec.eq_of_getLsbD_eq fun i hi => ?_
  rw [fieldP, BitVec.getLsbD_extractLsb', getLsbD_pxkk, if_neg (by omega), if_neg (by omega), Nat.add_sub_cancel_left]
  simp [hi]

@[simp] theorem fieldX_pxkk (p x : BitVec 4) (kk : Byte) : fieldX (p ++ x ++ kk) = x := by
  refine BitVec.eq_of_getLsbD_eq fun i hi => ?_
  rw [fieldX, BitVec.getLsbD_extractLsb', getLsbD_pxkk, if_neg (by omega), if_pos (by omega), Nat.add_sub_cancel_left]
  simp [hi]

@[simp] theorem fieldKk_pxkk (p x : BitVec 4) (kk : Byte) : fieldKk (p ++ x ++ kk) = kk := by
  refine BitVec.eq_of_getLsbD_eq fun i hi => ?_
  rw [fieldKk, BitVec.getLsbD_extractLsb', getLsbD_pxkk, if_pos (by omega), Nat.zero_add]
  simp [hi]

@[simp] theorem fieldP_pxyn (p x y n : BitVec 4) : fieldP (p ++ x ++ y ++ n) = p := by
  refine BitVec.eq_of_getLsbD_eq fun i hi => ?_
  rw [fieldP, BitVec.getLsbD_extractLsb', getLsbD_pxyn, if_neg (by omega), if_neg (by omega), if_neg (by omega),
    Nat.add_sub_cancel_left]
  simp [hi]

@[simp] theorem fieldX_pxyn (p x y n : BitVec 4) : fieldX (p ++ x ++ y ++ n) = x := by
  refine BitVec.eq_of_getLsbD_eq fun i hi => ?_
  rw [fieldX, BitVec.getLsbD_extractLsb', getLsbD_pxyn, if_neg (by omega), if_neg (by omega), if_pos (by omega),
    Nat.add_sub_cancel_left]
  simp [hi]

@[simp] theorem fieldY_pxyn (p x y n : BitVec 4) : fieldY (p ++ x ++ y ++ n) = y := by
  refine BitVec.eq_of_getLsbD_eq fun i hi => ?_
  rw [fieldY, BitVec.getLsbD_extractLsb', getLsbD_pxyn, if_neg (by omega), if_pos (by omega), Nat.add_sub_cancel_left]
  simp [hi]

@[simp] theorem fieldN_pxyn (p x y n : BitVec 4) : fieldN (p ++ x ++ y ++ n) = n := by
  refine BitVec.eq_of_getLsbD_eq fun i hi => ?_
  rw [fieldN, BitVec.getLsbD_extractLsb', getLsbD_pxyn, if_pos (by omega), Nat.zero_add]
  simp [hi]

/-! ## A word from its fields -/

theorem word_eq_pnnn (w : Word) : w = fieldP w ++ fieldNnn w := by
  refine BitVec.eq_of_getLsbD_eq fun i hi => ?_
  rw [getLsbD_pnnn, fieldP, fieldNnn]
  split <;> simp only [BitVec.getLsbD_extractLsb'] <;> rw [decide_eq_true (by omega), Bool.true_and] <;> congr 1 <;> omega

theorem word_eq_pxkk (w : Word) : w = fieldP w ++ fieldX w ++ fieldKk w := by
  refine BitVec.eq_of_getLsbD_eq fun i hi => ?_
  rw [getLsbD_pxkk, fieldP, fieldX, fieldKk]
  split
  · simp only [BitVec.getLsbD_extractLsb']
    rw [decide_eq_true (by omega), Bool.true_and]; congr 1; omega
  · split <;> simp only [BitVec.getLsbD_extractLsb'] <;> rw [decide_eq_true (by omega), Bool.true_and] <;> congr 1 <;> omega

theorem word_eq_pxyn (w : Word) : w = fieldP w ++ fieldX w ++ fieldY w ++ fieldN w := by
  refine BitVec.eq_of_getLsbD_eq fun i hi => ?_
  rw [getLsbD_pxyn, fieldP, fieldX, fieldY, fieldN]
  split
  · simp only [BitVec.getLsbD_extractLsb']
    rw [decide_eq_true (by omega), Bool.true_and]; congr 1; omega
  · split
    · simp only [BitVec.getLsbD_extractLsb']
      rw [decide_eq_true (by omega), Bool.true_and]; congr 1; omega
    · split <;> simp only [BitVec.getLsbD_extractLsb'] <;> rw [decide_eq_true (by omega), Bool.true_and] <;> congr 1 <;> omega

/-- A word from its two bytes, the higher one first (R49). -/
@[simp] theorem wordOfBytes_bytes (w : Word) : wordOfBytes (highByte w) (lowByte w) = w := by
  refine BitVec.eq_of_getLsbD_eq fun i hi => ?_
  have h : BitVec.getLsbD (w := 8 + 8) (highByte w ++ lowByte w) i =
      if i < 8 then (lowByte w).getLsbD i else (highByte w).getLsbD (i - 8) := by
    simp only [BitVec.getLsbD_append]
  refine Eq.trans h ?_
  rw [lowByte, highByte]
  split <;> simp only [BitVec.getLsbD_extractLsb'] <;> rw [decide_eq_true (by omega), Bool.true_and] <;> congr 1 <;> omega

/-! ## What a mask says -/

theorem fieldP_of_mask {w m b : Word} (h : w &&& m = b) (hm : fieldP m = 0xF#4) : fieldP w = fieldP b := by
  have h1 : fieldP w &&& fieldP m = fieldP b := by
    rw [← h, fieldP, fieldP, fieldP, BitVec.extractLsb'_and]
  rw [hm, show (0xF#4) = BitVec.allOnes 4 from rfl, BitVec.and_allOnes] at h1
  exact h1

theorem fieldN_of_mask {w m b : Word} (h : w &&& m = b) (hm : fieldN m = 0xF#4) : fieldN w = fieldN b := by
  have h1 : fieldN w &&& fieldN m = fieldN b := by
    rw [← h, fieldN, fieldN, fieldN, BitVec.extractLsb'_and]
  rw [hm, show (0xF#4) = BitVec.allOnes 4 from rfl, BitVec.and_allOnes] at h1
  exact h1

theorem fieldKk_of_mask {w m b : Word} (h : w &&& m = b) (hm : fieldKk m = 0xFF#8) : fieldKk w = fieldKk b := by
  have h1 : fieldKk w &&& fieldKk m = fieldKk b := by
    rw [← h, fieldKk, fieldKk, fieldKk, BitVec.extractLsb'_and]
  rw [hm, show (0xFF#8) = BitVec.allOnes 8 from rfl, BitVec.and_allOnes] at h1
  exact h1

/-! ## The decoder, one shape at a time -/

/-- A decoding error of a word is always that it is unmatched, and carries the word (R75). -/
theorem decode_error {w : Word} {e : DecodeError} (h : decode w = .error e) : e = .unmatched w := by
  unfold decode decode0 decode8 decodeE decodeF at h
  repeat' split at h
  all_goals first | (injection h with h; exact h.symm) | (exact absurd h (by simp))

end Sys2Proof
end

