-- ==== Sys2Proof/Laws/State.lean ====
section
/-! SUPPORT. What every plain update does to every field, so that no later proof unfolds a record update. -/

namespace Sys2Proof.Machine.State

section setV
variable (s : State) (v : Vector Byte 16)
@[simp] theorem setV_V : (s.setV v).V = v := rfl
@[simp] theorem setV_I : (s.setV v).I = s.I := rfl
@[simp] theorem setV_PC : (s.setV v).PC = s.PC := rfl
@[simp] theorem setV_DT : (s.setV v).DT = s.DT := rfl
@[simp] theorem setV_ST : (s.setV v).ST = s.ST := rfl
@[simp] theorem setV_stack : (s.setV v).stack = s.stack := rfl
@[simp] theorem setV_mode : (s.setV v).mode = s.mode := rfl
@[simp] theorem setV_mem : (s.setV v).mem = s.mem := rfl
@[simp] theorem setV_FB : (s.setV v).FB = s.FB := rfl
@[simp] theorem setV_font : (s.setV v).font = s.font := rfl
@[simp] theorem setV_inputs : (s.setV v).inputs = s.inputs := rfl
@[simp] theorem setV_upcoming : (s.setV v).upcoming = s.upcoming := rfl
@[simp] theorem setV_freeIdx : (s.setV v).freeIdx = s.freeIdx := rfl
@[simp] theorem setV_tone : (s.setV v).tone = s.tone := rfl
@[simp] theorem setV_result : (s.setV v).result = s.result := rfl
end setV

section setI
variable (s : State) (v : Word)
@[simp] theorem setI_V : (s.setI v).V = s.V := rfl
@[simp] theorem setI_I : (s.setI v).I = v := rfl
@[simp] theorem setI_PC : (s.setI v).PC = s.PC := rfl
@[simp] theorem setI_DT : (s.setI v).DT = s.DT := rfl
@[simp] theorem setI_ST : (s.setI v).ST = s.ST := rfl
@[simp] theorem setI_stack : (s.setI v).stack = s.stack := rfl
@[simp] theorem setI_mode : (s.setI v).mode = s.mode := rfl
@[simp] theorem setI_mem : (s.setI v).mem = s.mem := rfl
@[simp] theorem setI_FB : (s.setI v).FB = s.FB := rfl
@[simp] theorem setI_font : (s.setI v).font = s.font := rfl
@[simp] theorem setI_inputs : (s.setI v).inputs = s.inputs := rfl
@[simp] theorem setI_upcoming : (s.setI v).upcoming = s.upcoming := rfl
@[simp] theorem setI_freeIdx : (s.setI v).freeIdx = s.freeIdx := rfl
@[simp] theorem setI_tone : (s.setI v).tone = s.tone := rfl
@[simp] theorem setI_result : (s.setI v).result = s.result := rfl
end setI

section setPC
variable (s : State) (v : Word)
@[simp] theorem setPC_V : (s.setPC v).V = s.V := rfl
@[simp] theorem setPC_I : (s.setPC v).I = s.I := rfl
@[simp] theorem setPC_PC : (s.setPC v).PC = v := rfl
@[simp] theorem setPC_DT : (s.setPC v).DT = s.DT := rfl
@[simp] theorem setPC_ST : (s.setPC v).ST = s.ST := rfl
@[simp] theorem setPC_stack : (s.setPC v).stack = s.stack := rfl
@[simp] theorem setPC_mode : (s.setPC v).mode = s.mode := rfl
@[simp] theorem setPC_mem : (s.setPC v).mem = s.mem := rfl
@[simp] theorem setPC_FB : (s.setPC v).FB = s.FB := rfl
@[simp] theorem setPC_font : (s.setPC v).font = s.font := rfl
@[simp] theorem setPC_inputs : (s.setPC v).inputs = s.inputs := rfl
@[simp] theorem setPC_upcoming : (s.setPC v).upcoming = s.upcoming := rfl
@[simp] theorem setPC_freeIdx : (s.setPC v).freeIdx = s.freeIdx := rfl
@[simp] theorem setPC_tone : (s.setPC v).tone = s.tone := rfl
@[simp] theorem setPC_result : (s.setPC v).result = s.result := rfl
end setPC

section setDT
variable (s : State) (v : Byte)
@[simp] theorem setDT_V : (s.setDT v).V = s.V := rfl
@[simp] theorem setDT_I : (s.setDT v).I = s.I := rfl
@[simp] theorem setDT_PC : (s.setDT v).PC = s.PC := rfl
@[simp] theorem setDT_DT : (s.setDT v).DT = v := rfl
@[simp] theorem setDT_ST : (s.setDT v).ST = s.ST := rfl
@[simp] theorem setDT_stack : (s.setDT v).stack = s.stack := rfl
@[simp] theorem setDT_mode : (s.setDT v).mode = s.mode := rfl
@[simp] theorem setDT_mem : (s.setDT v).mem = s.mem := rfl
@[simp] theorem setDT_FB : (s.setDT v).FB = s.FB := rfl
@[simp] theorem setDT_font : (s.setDT v).font = s.font := rfl
@[simp] theorem setDT_inputs : (s.setDT v).inputs = s.inputs := rfl
@[simp] theorem setDT_upcoming : (s.setDT v).upcoming = s.upcoming := rfl
@[simp] theorem setDT_freeIdx : (s.setDT v).freeIdx = s.freeIdx := rfl
@[simp] theorem setDT_tone : (s.setDT v).tone = s.tone := rfl
@[simp] theorem setDT_result : (s.setDT v).result = s.result := rfl
end setDT

section setST
variable (s : State) (v : Byte)
@[simp] theorem setST_V : (s.setST v).V = s.V := rfl
@[simp] theorem setST_I : (s.setST v).I = s.I := rfl
@[simp] theorem setST_PC : (s.setST v).PC = s.PC := rfl
@[simp] theorem setST_DT : (s.setST v).DT = s.DT := rfl
@[simp] theorem setST_ST : (s.setST v).ST = v := rfl
@[simp] theorem setST_stack : (s.setST v).stack = s.stack := rfl
@[simp] theorem setST_mode : (s.setST v).mode = s.mode := rfl
@[simp] theorem setST_mem : (s.setST v).mem = s.mem := rfl
@[simp] theorem setST_FB : (s.setST v).FB = s.FB := rfl
@[simp] theorem setST_font : (s.setST v).font = s.font := rfl
@[simp] theorem setST_inputs : (s.setST v).inputs = s.inputs := rfl
@[simp] theorem setST_upcoming : (s.setST v).upcoming = s.upcoming := rfl
@[simp] theorem setST_freeIdx : (s.setST v).freeIdx = s.freeIdx := rfl
@[simp] theorem setST_tone : (s.setST v).tone = s.tone := rfl
@[simp] theorem setST_result : (s.setST v).result = s.result := rfl
end setST

section setStack
variable (s : State) (v : List Word)
@[simp] theorem setStack_V : (s.setStack v).V = s.V := rfl
@[simp] theorem setStack_I : (s.setStack v).I = s.I := rfl
@[simp] theorem setStack_PC : (s.setStack v).PC = s.PC := rfl
@[simp] theorem setStack_DT : (s.setStack v).DT = s.DT := rfl
@[simp] theorem setStack_ST : (s.setStack v).ST = s.ST := rfl
@[simp] theorem setStack_stack : (s.setStack v).stack = v := rfl
@[simp] theorem setStack_mode : (s.setStack v).mode = s.mode := rfl
@[simp] theorem setStack_mem : (s.setStack v).mem = s.mem := rfl
@[simp] theorem setStack_FB : (s.setStack v).FB = s.FB := rfl
@[simp] theorem setStack_font : (s.setStack v).font = s.font := rfl
@[simp] theorem setStack_inputs : (s.setStack v).inputs = s.inputs := rfl
@[simp] theorem setStack_upcoming : (s.setStack v).upcoming = s.upcoming := rfl
@[simp] theorem setStack_freeIdx : (s.setStack v).freeIdx = s.freeIdx := rfl
@[simp] theorem setStack_tone : (s.setStack v).tone = s.tone := rfl
@[simp] theorem setStack_result : (s.setStack v).result = s.result := rfl
end setStack

section setMode
variable (s : State) (v : Mode)
@[simp] theorem setMode_V : (s.setMode v).V = s.V := rfl
@[simp] theorem setMode_I : (s.setMode v).I = s.I := rfl
@[simp] theorem setMode_PC : (s.setMode v).PC = s.PC := rfl
@[simp] theorem setMode_DT : (s.setMode v).DT = s.DT := rfl
@[simp] theorem setMode_ST : (s.setMode v).ST = s.ST := rfl
@[simp] theorem setMode_stack : (s.setMode v).stack = s.stack := rfl
@[simp] theorem setMode_mode : (s.setMode v).mode = v := rfl
@[simp] theorem setMode_mem : (s.setMode v).mem = s.mem := rfl
@[simp] theorem setMode_FB : (s.setMode v).FB = s.FB := rfl
@[simp] theorem setMode_font : (s.setMode v).font = s.font := rfl
@[simp] theorem setMode_inputs : (s.setMode v).inputs = s.inputs := rfl
@[simp] theorem setMode_upcoming : (s.setMode v).upcoming = s.upcoming := rfl
@[simp] theorem setMode_freeIdx : (s.setMode v).freeIdx = s.freeIdx := rfl
@[simp] theorem setMode_tone : (s.setMode v).tone = s.tone := rfl
@[simp] theorem setMode_result : (s.setMode v).result = s.result := rfl
end setMode

section setMem
variable (s : State) (v : Memory)
@[simp] theorem setMem_V : (s.setMem v).V = s.V := rfl
@[simp] theorem setMem_I : (s.setMem v).I = s.I := rfl
@[simp] theorem setMem_PC : (s.setMem v).PC = s.PC := rfl
@[simp] theorem setMem_DT : (s.setMem v).DT = s.DT := rfl
@[simp] theorem setMem_ST : (s.setMem v).ST = s.ST := rfl
@[simp] theorem setMem_stack : (s.setMem v).stack = s.stack := rfl
@[simp] theorem setMem_mode : (s.setMem v).mode = s.mode := rfl
@[simp] theorem setMem_mem : (s.setMem v).mem = v := rfl
@[simp] theorem setMem_FB : (s.setMem v).FB = s.FB := rfl
@[simp] theorem setMem_font : (s.setMem v).font = s.font := rfl
@[simp] theorem setMem_inputs : (s.setMem v).inputs = s.inputs := rfl
@[simp] theorem setMem_upcoming : (s.setMem v).upcoming = s.upcoming := rfl
@[simp] theorem setMem_freeIdx : (s.setMem v).freeIdx = s.freeIdx := rfl
@[simp] theorem setMem_tone : (s.setMem v).tone = s.tone := rfl
@[simp] theorem setMem_result : (s.setMem v).result = s.result := rfl
end setMem

section setFB
variable (s : State) (v : Vector (BitVec 64) 32)
@[simp] theorem setFB_V : (s.setFB v).V = s.V := rfl
@[simp] theorem setFB_I : (s.setFB v).I = s.I := rfl
@[simp] theorem setFB_PC : (s.setFB v).PC = s.PC := rfl
@[simp] theorem setFB_DT : (s.setFB v).DT = s.DT := rfl
@[simp] theorem setFB_ST : (s.setFB v).ST = s.ST := rfl
@[simp] theorem setFB_stack : (s.setFB v).stack = s.stack := rfl
@[simp] theorem setFB_mode : (s.setFB v).mode = s.mode := rfl
@[simp] theorem setFB_mem : (s.setFB v).mem = s.mem := rfl
@[simp] theorem setFB_FB : (s.setFB v).FB = v := rfl
@[simp] theorem setFB_font : (s.setFB v).font = s.font := rfl
@[simp] theorem setFB_inputs : (s.setFB v).inputs = s.inputs := rfl
@[simp] theorem setFB_upcoming : (s.setFB v).upcoming = s.upcoming := rfl
@[simp] theorem setFB_freeIdx : (s.setFB v).freeIdx = s.freeIdx := rfl
@[simp] theorem setFB_tone : (s.setFB v).tone = s.tone := rfl
@[simp] theorem setFB_result : (s.setFB v).result = s.result := rfl
end setFB

section setTone
variable (s : State) (v : Option Tone)
@[simp] theorem setTone_V : (s.setTone v).V = s.V := rfl
@[simp] theorem setTone_I : (s.setTone v).I = s.I := rfl
@[simp] theorem setTone_PC : (s.setTone v).PC = s.PC := rfl
@[simp] theorem setTone_DT : (s.setTone v).DT = s.DT := rfl
@[simp] theorem setTone_ST : (s.setTone v).ST = s.ST := rfl
@[simp] theorem setTone_stack : (s.setTone v).stack = s.stack := rfl
@[simp] theorem setTone_mode : (s.setTone v).mode = s.mode := rfl
@[simp] theorem setTone_mem : (s.setTone v).mem = s.mem := rfl
@[simp] theorem setTone_FB : (s.setTone v).FB = s.FB := rfl
@[simp] theorem setTone_font : (s.setTone v).font = s.font := rfl
@[simp] theorem setTone_inputs : (s.setTone v).inputs = s.inputs := rfl
@[simp] theorem setTone_upcoming : (s.setTone v).upcoming = s.upcoming := rfl
@[simp] theorem setTone_freeIdx : (s.setTone v).freeIdx = s.freeIdx := rfl
@[simp] theorem setTone_tone : (s.setTone v).tone = v := rfl
@[simp] theorem setTone_result : (s.setTone v).result = s.result := rfl
end setTone

section setResult
variable (s : State) (v : CycleResult)
@[simp] theorem setResult_V : (s.setResult v).V = s.V := rfl
@[simp] theorem setResult_I : (s.setResult v).I = s.I := rfl
@[simp] theorem setResult_PC : (s.setResult v).PC = s.PC := rfl
@[simp] theorem setResult_DT : (s.setResult v).DT = s.DT := rfl
@[simp] theorem setResult_ST : (s.setResult v).ST = s.ST := rfl
@[simp] theorem setResult_stack : (s.setResult v).stack = s.stack := rfl
@[simp] theorem setResult_mode : (s.setResult v).mode = s.mode := rfl
@[simp] theorem setResult_mem : (s.setResult v).mem = s.mem := rfl
@[simp] theorem setResult_FB : (s.setResult v).FB = s.FB := rfl
@[simp] theorem setResult_font : (s.setResult v).font = s.font := rfl
@[simp] theorem setResult_inputs : (s.setResult v).inputs = s.inputs := rfl
@[simp] theorem setResult_upcoming : (s.setResult v).upcoming = s.upcoming := rfl
@[simp] theorem setResult_freeIdx : (s.setResult v).freeIdx = s.freeIdx := rfl
@[simp] theorem setResult_tone : (s.setResult v).tone = s.tone := rfl
@[simp] theorem setResult_result : (s.setResult v).result = v := rfl
end setResult

end Sys2Proof.Machine.State
end

