-- ==== Sys2Proof/Laws/Memory.lean ====
section
/-! SUPPORT. The laws of memory: a read after a write, what a write leaves alone, the canonical form, and one lemma per memory
operation that says everything it can do. -/

namespace Sys2Proof.Machine

/-! ## Reading after an update -/

namespace Memory

variable (font : Config.Font)

@[simp] theorem peek_nil (a : Nat) : peek font [] a = resetByte font a := rfl

theorem peek_cons (k : Nat) (v : Byte) (m : Memory) (a : Nat) :
    peek font ((k, v) :: m) a = if k = a then v else peek font m a := rfl

theorem erase_cons (k : Nat) (v : Byte) (m : Memory) (a : Nat) :
    erase ((k, v) :: m) a = if k = a then erase m a else (k, v) :: erase m a := by
  by_cases h : k = a <;> simp [erase, h]

theorem insert_cons (k : Nat) (w : Byte) (m : Memory) (a : Nat) (v : Byte) :
    insert ((k, w) :: m) a v = if a < k then (a, v) :: (k, w) :: m else (k, w) :: insert m a v := rfl

theorem peek_erase (m : Memory) (a b : Nat) :
    peek font (m.erase a) b = if b = a then resetByte font a else peek font m b := by
  induction m with
  | nil =>
    by_cases h : b = a
    · simp [erase, h]
    · simp [erase, h]
  | cons c m ih =>
    obtain ⟨k, v⟩ := c
    rw [erase_cons]
    by_cases hk : k = a
    · rw [if_pos hk, ih, peek_cons]
      by_cases hb : b = a
      · simp [hb]
      · have : k ≠ b := by omega
        simp [hb, this]
    · rw [if_neg hk, peek_cons, ih, peek_cons]
      by_cases hb : b = a
      · have : k ≠ b := by omega
        simp [hb, hk]
      · simp [hb]

theorem peek_insert (m : Memory) (a : Nat) (v : Byte) (b : Nat) (hm : ∀ c ∈ m, c.1 ≠ a) :
    peek font (m.insert a v) b = if b = a then v else peek font m b := by
  induction m with
  | nil =>
    by_cases h : b = a
    · simp [insert, peek_cons, h]
    · simp [insert, peek_cons, h, Ne.symm h]
  | cons c m ih =>
    obtain ⟨k, w⟩ := c
    have hk : k ≠ a := hm (k, w) (by simp)
    have ih := ih (fun c hc => hm c (by simp [hc]))
    rw [insert_cons]
    split
    · rw [peek_cons]
      by_cases hb : b = a
      · simp [hb]
      · simp [hb, Ne.symm hb]
    · rw [peek_cons, ih, peek_cons]
      by_cases hb : b = a
      · subst hb
        simp [hk]
      · simp [hb]

theorem ne_of_mem_erase {m : Memory} {a : Nat} {c : Host.Cell} (h : c ∈ m.erase a) : c.1 ≠ a := by
  simp only [erase, List.mem_filter, decide_eq_true_eq] at h
  exact h.2

/-- A read after a write: the byte written at its address, every other byte as before. -/
theorem peek_poke (m : Memory) (a : Nat) (v : Byte) (b : Nat) :
    peek font (m.poke font a v) b = if b = a then v else peek font m b := by
  unfold poke
  split
  · next h => rw [peek_erase, h]
  · rw [peek_insert font _ a v b (fun c hc => ne_of_mem_erase hc), peek_erase]
    by_cases hb : b = a <;> simp [hb]

/-- Consecutive writes: the bytes written at their addresses, every other byte as before. -/
theorem peek_pokeBytes (bytes : List Byte) (m : Memory) (a b : Nat) :
    peek font (m.pokeBytes font a bytes) b =
      if a ≤ b ∧ b < a + bytes.length then bytes.getD (b - a) 0 else peek font m b := by
  induction bytes generalizing m a with
  | nil => simp [pokeBytes]
  | cons x xs ih =>
    rw [pokeBytes, ih, peek_poke]
    by_cases h1 : b = a
    · subst h1; simp
    · by_cases h2 : a + 1 ≤ b ∧ b < a + 1 + xs.length
      · have h3 : a ≤ b ∧ b < a + (x :: xs).length := by simp; omega
        have h4 : b - a = (b - (a + 1)) + 1 := by omega
        rw [if_pos h2, if_pos h3, h4, List.getD_cons_succ]
      · have h3 : ¬ (a ≤ b ∧ b < a + (x :: xs).length) := by simp; omega
        rw [if_neg h2, if_neg h3, if_neg h1]

/-! ## The canonical form -/

theorem wfFrom_cons (lo k : Nat) (v : Byte) (m : Memory) :
    wfFrom font lo ((k, v) :: m) = true ↔
      lo ≤ k ∧ k < Config.memSize ∧ v ≠ resetByte font k ∧ wfFrom font (k + 1) m = true := by
  simp [wfFrom, and_assoc]

theorem wfFrom_mono {lo lo' : Nat} {m : Memory} (h : lo' ≤ lo) (hm : wfFrom font lo m = true) :
    wfFrom font lo' m = true := by
  cases m with
  | nil => rfl
  | cons c m =>
    obtain ⟨k, v⟩ := c
    rw [wfFrom_cons] at *
    exact ⟨by omega, hm.2⟩

theorem wfFrom_erase {m : Memory} (a : Nat) {lo : Nat} (hm : wfFrom font lo m = true) :
    wfFrom font lo (m.erase a) = true := by
  induction m generalizing lo with
  | nil => rfl
  | cons c m ih =>
    obtain ⟨k, v⟩ := c
    rw [wfFrom_cons] at hm
    rw [erase_cons]
    split
    · exact wfFrom_mono font (by omega) (ih hm.2.2.2)
    · rw [wfFrom_cons]
      exact ⟨hm.1, hm.2.1, hm.2.2.1, ih hm.2.2.2⟩

theorem wfFrom_insert {m : Memory} {a : Nat} {v : Byte} {lo : Nat} (ha : a < Config.memSize)
    (hv : v ≠ resetByte font a) (hlo : lo ≤ a) (hm : wfFrom font lo m = true) (hne : ∀ c ∈ m, c.1 ≠ a) :
    wfFrom font lo (m.insert a v) = true := by
  induction m generalizing lo with
  | nil => simp [insert, wfFrom, ha, hv, hlo]
  | cons c m ih =>
    obtain ⟨k, w⟩ := c
    have hk : k ≠ a := hne (k, w) (by simp)
    rw [wfFrom_cons] at hm
    rw [insert_cons]
    split
    · simp only [wfFrom_cons]
      exact ⟨hlo, ha, hv, by omega, hm.2.1, hm.2.2.1, hm.2.2.2⟩
    · rw [wfFrom_cons]
      exact ⟨hm.1, hm.2.1, hm.2.2.1, ih (by omega) hm.2.2.2 (fun c hc => hne c (by simp [hc]))⟩

/-- A write to an address that exists keeps the canonical form. -/
theorem wf_poke {m : Memory} {a : Nat} (v : Byte) (ha : a < Config.memSize) (hm : m.wf font = true) :
    (m.poke font a v).wf font = true := by
  unfold poke
  split
  · exact wfFrom_erase font a hm
  · next h => exact wfFrom_insert font ha h (Nat.zero_le a) (wfFrom_erase font a hm) (fun c hc => ne_of_mem_erase hc)

/-- A load of an image that fits keeps the canonical form. -/
theorem wf_pokeBytes (bytes : List Byte) {m : Memory} {a : Nat} (ha : a + bytes.length ≤ Config.memSize)
    (hm : m.wf font = true) : (m.pokeBytes font a bytes).wf font = true := by
  induction bytes generalizing m a with
  | nil => exact hm
  | cons x xs ih =>
    simp only [List.length_cons] at ha
    exact ih (by omega) (wf_poke font x (by omega) hm)

end Memory

/-! ## The checked accesses -/

namespace State

variable (s : State) (a : Nat) (v : Byte)

theorem byteAt_setByte (b : Nat) : (s.setByte a v).byteAt b = if b = a then v else s.byteAt b :=
  Memory.peek_poke s.font s.mem a v b

@[simp] theorem setByte_V : (s.setByte a v).V = s.V := rfl
@[simp] theorem setByte_I : (s.setByte a v).I = s.I := rfl
@[simp] theorem setByte_PC : (s.setByte a v).PC = s.PC := rfl
@[simp] theorem setByte_DT : (s.setByte a v).DT = s.DT := rfl
@[simp] theorem setByte_ST : (s.setByte a v).ST = s.ST := rfl
@[simp] theorem setByte_stack : (s.setByte a v).stack = s.stack := rfl
@[simp] theorem setByte_mode : (s.setByte a v).mode = s.mode := rfl
@[simp] theorem setByte_FB : (s.setByte a v).FB = s.FB := rfl
@[simp] theorem setByte_font : (s.setByte a v).font = s.font := rfl
@[simp] theorem setByte_inputs : (s.setByte a v).inputs = s.inputs := rfl
@[simp] theorem setByte_upcoming : (s.setByte a v).upcoming = s.upcoming := rfl
@[simp] theorem setByte_freeIdx : (s.setByte a v).freeIdx = s.freeIdx := rfl
@[simp] theorem setByte_tone : (s.setByte a v).tone = s.tone := rfl
@[simp] theorem setByte_result : (s.setByte a v).result = s.result := rfl

end State

/-! ## What memory holds after construction -/

/-- The font table of the construction (R45). -/
theorem resetByte_fontTable (font : Config.Font) {i : Nat} (hi : i < 80) :
    resetByte font (font.base.val + i) = font.data.toList.getD i 0 := by
  have hb := font.base.isLt
  rw [resetByte, if_pos (by simp only [Config.progBase]; omega), fontByte, if_pos (Nat.le_add_right _ _), Nat.add_sub_cancel_left]

/-- Every byte outside the font table is zero after construction (R41, R45). -/
theorem resetByte_outside (font : Config.Font) {a : Nat} (ha : a < font.base.val ∨ font.base.val + 80 ≤ a) : resetByte font a = 0 := by
  have hb := font.base.isLt
  have hl : font.data.toList.length = 80 := by simp
  unfold resetByte fontByte
  split
  · split
    · rw [List.getD_eq_getElem?_getD, List.getElem?_eq_none (by omega)]; rfl
    · rfl
  · rfl

@[simp] theorem State.byteAt_construct (font : Config.Font) (a : Nat) : (State.construct font).byteAt a = resetByte font a := rfl

/-- Everything a byte read can do (R50). -/
theorem memRead_eq (a : Nat) (s : State) :
    (4096 ≤ a ∧ memRead a s = .error (.addressOutOfRange a)) ∨ (a < 4096 ∧ memRead a s = .ok (s.byteAt a)) := by
  unfold memRead
  by_cases h : Config.memSize ≤ a
  · exact .inl ⟨h, if_pos h⟩
  · exact .inr ⟨by simpa [Config.memSize] using h, if_neg h⟩

theorem memRead_of_lt {a : Nat} {s : State} (h : a < 4096) : memRead a s = .ok (s.byteAt a) := by
  rcases memRead_eq a s with ⟨h', _⟩ | ⟨_, h'⟩
  · omega
  · exact h'

theorem memRead_of_le {a : Nat} {s : State} (h : 4096 ≤ a) : memRead a s = .error (.addressOutOfRange a) := by
  rcases memRead_eq a s with ⟨_, h'⟩ | ⟨h', _⟩
  · exact h'
  · omega

/-- Everything a byte write can do (R52, R53). -/
theorem memWrite_eq (a : Nat) (v : Byte) (s : State) :
    (4096 ≤ a ∧ memWrite a v s = .error (.addressOutOfRange a)) ∨
    (a < 0x200 ∧ memWrite a v s = .error (.protectedWrite a)) ∨
    (0x200 ≤ a ∧ a < 4096 ∧ memWrite a v s = .ok (s.setByte a v)) := by
  unfold memWrite
  by_cases h : Config.memSize ≤ a
  · exact .inl ⟨h, if_pos h⟩
  · rw [if_neg h]
    have h' : a < 4096 := by simpa [Config.memSize] using h
    by_cases h2 : a < Config.progBase
    · exact .inr (.inl ⟨h2, if_pos h2⟩)
    · exact .inr (.inr ⟨by simpa [Config.progBase] using h2, h', if_neg h2⟩)

theorem memWrite_of_mem {a : Nat} {v : Byte} {s : State} (h1 : 0x200 ≤ a) (h2 : a < 4096) :
    memWrite a v s = .ok (s.setByte a v) := by
  rcases memWrite_eq a v s with ⟨h, _⟩ | ⟨h, _⟩ | ⟨_, _, h⟩
  · omega
  · omega
  · exact h

theorem memWrite_of_low {a : Nat} {v : Byte} {s : State} (h : a < 0x200) : memWrite a v s = .error (.protectedWrite a) := by
  rcases memWrite_eq a v s with ⟨h', _⟩ | ⟨_, h'⟩ | ⟨h', _⟩
  · omega
  · exact h'
  · omega

theorem memWrite_of_le {a : Nat} {v : Byte} {s : State} (h : 4096 ≤ a) : memWrite a v s = .error (.addressOutOfRange a) := by
  rcases memWrite_eq a v s with ⟨_, h'⟩ | ⟨h', _⟩ | ⟨_, h', _⟩
  · exact h'
  · omega
  · omega

/-- Everything a word read can do (R51). -/
theorem memReadWord_eq (a : Nat) (s : State) :
    (4096 ≤ a ∧ memReadWord a s = .error (.addressOutOfRange a)) ∨
    (a = 4095 ∧ memReadWord a s = .error (.addressOutOfRange 4096)) ∨
    (a + 1 < 4096 ∧ memReadWord a s = .ok (wordOfBytes (s.byteAt a) (s.byteAt (a + 1)))) := by
  unfold memReadWord
  rcases memRead_eq a s with ⟨h, e⟩ | ⟨h, e⟩
  · exact .inl ⟨h, by rw [e]⟩
  · rw [e]
    rcases memRead_eq (a + 1) s with ⟨h', e'⟩ | ⟨h', e'⟩
    · obtain rfl : a = 4095 := by omega
      exact .inr (.inl ⟨rfl, by rw [e']⟩)
    · exact .inr (.inr ⟨h', by rw [e']⟩)

end Sys2Proof.Machine
end

