-- ==== Sys2Proof/Laws/Ops.lean ====
section
/-! SUPPORT. What the named operations over registers, `PC`, the timers and the flag do to every field, and one lemma per shared operation
that says everything it can do. -/

namespace Sys2Proof.Machine

namespace State

/-! ## Frames of the named updates -/

section setV
variable (s : State) (v : Vector Byte 16)
@[simp] theorem setV_byteAt (addr : Nat) : (s.setV v).byteAt addr = s.byteAt addr := rfl
end setV

section setI
variable (s : State) (v : Word)
@[simp] theorem setI_reg (r : RegIdx) : (s.setI v).reg r = s.reg r := rfl
@[simp] theorem setI_byteAt (addr : Nat) : (s.setI v).byteAt addr = s.byteAt addr := rfl
end setI

section setPC
variable (s : State) (v : Word)
@[simp] theorem setPC_reg (r : RegIdx) : (s.setPC v).reg r = s.reg r := rfl
@[simp] theorem setPC_byteAt (addr : Nat) : (s.setPC v).byteAt addr = s.byteAt addr := rfl
end setPC

section setDT
variable (s : State) (v : Byte)
@[simp] theorem setDT_reg (r : RegIdx) : (s.setDT v).reg r = s.reg r := rfl
@[simp] theorem setDT_byteAt (addr : Nat) : (s.setDT v).byteAt addr = s.byteAt addr := rfl
end setDT

section setST
variable (s : State) (v : Byte)
@[simp] theorem setST_reg (r : RegIdx) : (s.setST v).reg r = s.reg r := rfl
@[simp] theorem setST_byteAt (addr : Nat) : (s.setST v).byteAt addr = s.byteAt addr := rfl
end setST

section setStack
variable (s : State) (v : List Word)
@[simp] theorem setStack_reg (r : RegIdx) : (s.setStack v).reg r = s.reg r := rfl
@[simp] theorem setStack_byteAt (addr : Nat) : (s.setStack v).byteAt addr = s.byteAt addr := rfl
end setStack

section setMode
variable (s : State) (v : Mode)
@[simp] theorem setMode_reg (r : RegIdx) : (s.setMode v).reg r = s.reg r := rfl
@[simp] theorem setMode_byteAt (addr : Nat) : (s.setMode v).byteAt addr = s.byteAt addr := rfl
end setMode

section setMem
variable (s : State) (v : Memory)
@[simp] theorem setMem_reg (r : RegIdx) : (s.setMem v).reg r = s.reg r := rfl
end setMem

section setFB
variable (s : State) (v : Vector (BitVec 64) 32)
@[simp] theorem setFB_reg (r : RegIdx) : (s.setFB v).reg r = s.reg r := rfl
@[simp] theorem setFB_byteAt (addr : Nat) : (s.setFB v).byteAt addr = s.byteAt addr := rfl
end setFB

section setTone
variable (s : State) (v : Option Tone)
@[simp] theorem setTone_reg (r : RegIdx) : (s.setTone v).reg r = s.reg r := rfl
@[simp] theorem setTone_byteAt (addr : Nat) : (s.setTone v).byteAt addr = s.byteAt addr := rfl
end setTone

section setResult
variable (s : State) (v : CycleResult)
@[simp] theorem setResult_reg (r : RegIdx) : (s.setResult v).reg r = s.reg r := rfl
@[simp] theorem setResult_byteAt (addr : Nat) : (s.setResult v).byteAt addr = s.byteAt addr := rfl
end setResult

@[simp] theorem setByte_reg (s : State) (a : Nat) (v : Byte) (r : RegIdx) : (s.setByte a v).reg r = s.reg r := rfl

section setReg
variable (s : State) (x : RegIdx) (b : Byte)
@[simp] theorem setReg_I : (s.setReg x b).I = s.I := rfl
@[simp] theorem setReg_PC : (s.setReg x b).PC = s.PC := rfl
@[simp] theorem setReg_DT : (s.setReg x b).DT = s.DT := rfl
@[simp] theorem setReg_ST : (s.setReg x b).ST = s.ST := rfl
@[simp] theorem setReg_stack : (s.setReg x b).stack = s.stack := rfl
@[simp] theorem setReg_mode : (s.setReg x b).mode = s.mode := rfl
@[simp] theorem setReg_mem : (s.setReg x b).mem = s.mem := rfl
@[simp] theorem setReg_FB : (s.setReg x b).FB = s.FB := rfl
@[simp] theorem setReg_font : (s.setReg x b).font = s.font := rfl
@[simp] theorem setReg_inputs : (s.setReg x b).inputs = s.inputs := rfl
@[simp] theorem setReg_upcoming : (s.setReg x b).upcoming = s.upcoming := rfl
@[simp] theorem setReg_freeIdx : (s.setReg x b).freeIdx = s.freeIdx := rfl
@[simp] theorem setReg_tone : (s.setReg x b).tone = s.tone := rfl
@[simp] theorem setReg_result : (s.setReg x b).result = s.result := rfl
@[simp] theorem setReg_byteAt (addr : Nat) : (s.setReg x b).byteAt addr = s.byteAt addr := rfl
end setReg

section setFlag
variable (s : State) (c : Bool)
@[simp] theorem setFlag_I : (s.setFlag c).I = s.I := rfl
@[simp] theorem setFlag_PC : (s.setFlag c).PC = s.PC := rfl
@[simp] theorem setFlag_DT : (s.setFlag c).DT = s.DT := rfl
@[simp] theorem setFlag_ST : (s.setFlag c).ST = s.ST := rfl
@[simp] theorem setFlag_stack : (s.setFlag c).stack = s.stack := rfl
@[simp] theorem setFlag_mode : (s.setFlag c).mode = s.mode := rfl
@[simp] theorem setFlag_mem : (s.setFlag c).mem = s.mem := rfl
@[simp] theorem setFlag_FB : (s.setFlag c).FB = s.FB := rfl
@[simp] theorem setFlag_font : (s.setFlag c).font = s.font := rfl
@[simp] theorem setFlag_inputs : (s.setFlag c).inputs = s.inputs := rfl
@[simp] theorem setFlag_upcoming : (s.setFlag c).upcoming = s.upcoming := rfl
@[simp] theorem setFlag_freeIdx : (s.setFlag c).freeIdx = s.freeIdx := rfl
@[simp] theorem setFlag_tone : (s.setFlag c).tone = s.tone := rfl
@[simp] theorem setFlag_result : (s.setFlag c).result = s.result := rfl
@[simp] theorem setFlag_byteAt (addr : Nat) : (s.setFlag c).byteAt addr = s.byteAt addr := rfl
end setFlag

section advance
variable (s : State)
@[simp] theorem advance_V : (s.advance).V = s.V := rfl
@[simp] theorem advance_I : (s.advance).I = s.I := rfl
@[simp] theorem advance_DT : (s.advance).DT = s.DT := rfl
@[simp] theorem advance_ST : (s.advance).ST = s.ST := rfl
@[simp] theorem advance_stack : (s.advance).stack = s.stack := rfl
@[simp] theorem advance_mode : (s.advance).mode = s.mode := rfl
@[simp] theorem advance_mem : (s.advance).mem = s.mem := rfl
@[simp] theorem advance_FB : (s.advance).FB = s.FB := rfl
@[simp] theorem advance_font : (s.advance).font = s.font := rfl
@[simp] theorem advance_inputs : (s.advance).inputs = s.inputs := rfl
@[simp] theorem advance_upcoming : (s.advance).upcoming = s.upcoming := rfl
@[simp] theorem advance_freeIdx : (s.advance).freeIdx = s.freeIdx := rfl
@[simp] theorem advance_tone : (s.advance).tone = s.tone := rfl
@[simp] theorem advance_result : (s.advance).result = s.result := rfl
@[simp] theorem advance_reg (r : RegIdx) : (s.advance).reg r = s.reg r := rfl
@[simp] theorem advance_byteAt (addr : Nat) : (s.advance).byteAt addr = s.byteAt addr := rfl
end advance

section skipIf
variable (s : State) (c : Bool)
@[simp] theorem skipIf_V : (s.skipIf c).V = s.V := rfl
@[simp] theorem skipIf_I : (s.skipIf c).I = s.I := rfl
@[simp] theorem skipIf_DT : (s.skipIf c).DT = s.DT := rfl
@[simp] theorem skipIf_ST : (s.skipIf c).ST = s.ST := rfl
@[simp] theorem skipIf_stack : (s.skipIf c).stack = s.stack := rfl
@[simp] theorem skipIf_mode : (s.skipIf c).mode = s.mode := rfl
@[simp] theorem skipIf_mem : (s.skipIf c).mem = s.mem := rfl
@[simp] theorem skipIf_FB : (s.skipIf c).FB = s.FB := rfl
@[simp] theorem skipIf_font : (s.skipIf c).font = s.font := rfl
@[simp] theorem skipIf_inputs : (s.skipIf c).inputs = s.inputs := rfl
@[simp] theorem skipIf_upcoming : (s.skipIf c).upcoming = s.upcoming := rfl
@[simp] theorem skipIf_freeIdx : (s.skipIf c).freeIdx = s.freeIdx := rfl
@[simp] theorem skipIf_tone : (s.skipIf c).tone = s.tone := rfl
@[simp] theorem skipIf_result : (s.skipIf c).result = s.result := rfl
@[simp] theorem skipIf_reg (r : RegIdx) : (s.skipIf c).reg r = s.reg r := rfl
@[simp] theorem skipIf_byteAt (addr : Nat) : (s.skipIf c).byteAt addr = s.byteAt addr := rfl
end skipIf

section decrementTimers
variable (s : State)
@[simp] theorem decrementTimers_V : (s.decrementTimers).V = s.V := rfl
@[simp] theorem decrementTimers_I : (s.decrementTimers).I = s.I := rfl
@[simp] theorem decrementTimers_PC : (s.decrementTimers).PC = s.PC := rfl
@[simp] theorem decrementTimers_stack : (s.decrementTimers).stack = s.stack := rfl
@[simp] theorem decrementTimers_mode : (s.decrementTimers).mode = s.mode := rfl
@[simp] theorem decrementTimers_mem : (s.decrementTimers).mem = s.mem := rfl
@[simp] theorem decrementTimers_FB : (s.decrementTimers).FB = s.FB := rfl
@[simp] theorem decrementTimers_font : (s.decrementTimers).font = s.font := rfl
@[simp] theorem decrementTimers_inputs : (s.decrementTimers).inputs = s.inputs := rfl
@[simp] theorem decrementTimers_upcoming : (s.decrementTimers).upcoming = s.upcoming := rfl
@[simp] theorem decrementTimers_freeIdx : (s.decrementTimers).freeIdx = s.freeIdx := rfl
@[simp] theorem decrementTimers_tone : (s.decrementTimers).tone = s.tone := rfl
@[simp] theorem decrementTimers_result : (s.decrementTimers).result = s.result := rfl
@[simp] theorem decrementTimers_reg (r : RegIdx) : (s.decrementTimers).reg r = s.reg r := rfl
@[simp] theorem decrementTimers_byteAt (addr : Nat) : (s.decrementTimers).byteAt addr = s.byteAt addr := rfl
end decrementTimers

section raised
variable (s : State) (e : CoreError)
@[simp] theorem raised_V : (s.raised e).V = s.V := rfl
@[simp] theorem raised_I : (s.raised e).I = s.I := rfl
@[simp] theorem raised_PC : (s.raised e).PC = s.PC := rfl
@[simp] theorem raised_DT : (s.raised e).DT = s.DT := rfl
@[simp] theorem raised_ST : (s.raised e).ST = s.ST := rfl
@[simp] theorem raised_stack : (s.raised e).stack = s.stack := rfl
@[simp] theorem raised_mode : (s.raised e).mode = s.mode := rfl
@[simp] theorem raised_mem : (s.raised e).mem = s.mem := rfl
@[simp] theorem raised_FB : (s.raised e).FB = s.FB := rfl
@[simp] theorem raised_font : (s.raised e).font = s.font := rfl
@[simp] theorem raised_inputs : (s.raised e).inputs = s.inputs := rfl
@[simp] theorem raised_upcoming : (s.raised e).upcoming = s.upcoming := rfl
@[simp] theorem raised_freeIdx : (s.raised e).freeIdx = s.freeIdx := rfl
@[simp] theorem raised_tone : (s.raised e).tone = s.tone := rfl
@[simp] theorem raised_reg (r : RegIdx) : (s.raised e).reg r = s.reg r := rfl
@[simp] theorem raised_byteAt (addr : Nat) : (s.raised e).byteAt addr = s.byteAt addr := rfl
end raised

@[simp] theorem advance_PC (s : State) : s.advance.PC = s.PC + 2 := rfl
@[simp] theorem skipIf_PC (s : State) (c : Bool) : (s.skipIf c).PC = if c then s.PC + 2 else s.PC := rfl
@[simp] theorem decrementTimers_DT (s : State) : s.decrementTimers.DT = saturatingDec s.DT := rfl
@[simp] theorem decrementTimers_ST (s : State) : s.decrementTimers.ST = saturatingDec s.ST := rfl
@[simp] theorem raised_result (s : State) (e : CoreError) : (s.raised e).result = .err e := rfl

/-! ## Registers -/

/-- A read after a write: the value written in its register, every other register as before. -/
theorem reg_setReg (s : State) (x r : RegIdx) (b : Byte) : (s.setReg x b).reg r = if r = x then b else s.reg r := by
  have h : x.toNat = r.toNat ↔ r = x := by rw [BitVec.toNat_eq]; omega
  simp [reg, setReg, Vector.getElem_set, h]

@[simp] theorem reg_setReg_same (s : State) (x : RegIdx) (b : Byte) : (s.setReg x b).reg x = b := by
  rw [reg_setReg, if_pos rfl]

theorem reg_setReg_ne (s : State) {x r : RegIdx} (b : Byte) (h : r ≠ x) : (s.setReg x b).reg r = s.reg r := by
  rw [reg_setReg, if_neg h]

theorem reg_setFlag (s : State) (c : Bool) (r : RegIdx) :
    (s.setFlag c).reg r = if r = vf then (if c then 0x01 else 0x00) else s.reg r := reg_setReg ..

/-- The list of the first registers holds the register of each number in range. -/
theorem regsUpTo_getD (s : State) (x r : RegIdx) (h : r.toNat ≤ x.toNat) : (s.regsUpTo x).getD r.toNat 0 = s.reg r := by
  have hr : r.toNat < 16 := r.isLt
  have hx : x.toNat < 16 := x.isLt
  simp [regsUpTo, reg, List.getD_eq_getElem?_getD, show r.toNat < x.toNat + 1 by omega, hr]

@[simp] theorem regsUpTo_length (s : State) (x : RegIdx) : (s.regsUpTo x).length = x.toNat + 1 := by
  have hx : x.toNat < 16 := x.isLt
  simp [regsUpTo]
  omega

end State

/-! ## Ending an instruction -/

theorem complete_eq (s : State) : complete s = .next (s.setResult .ok) := rfl
theorem raise_eq (e : CoreError) (s : State) : raise e s = .next (s.raised e) := rfl

/-! ## The call stack -/

/-- Everything a push can do (R31). -/
theorem pushStack_eq (a : Word) (s : State) :
    (16 ≤ s.stack.length ∧ pushStack a s = .error .stackOverflow) ∨
    (s.stack.length < 16 ∧ pushStack a s = .ok ((s.setStack (s.stack ++ [s.PC])).setPC a)) := by
  unfold pushStack
  by_cases h : Config.stackDepth ≤ s.stack.length
  · exact .inl ⟨h, if_pos h⟩
  · exact .inr ⟨by simpa [Config.stackDepth] using h, if_neg h⟩

/-- Everything a pop can do (R32). -/
theorem popStack_eq (s : State) :
    (s.stack = [] ∧ popStack s = .error .emptyStack) ∨
    (∃ st a, s.stack = st ++ [a] ∧ popStack s = .ok ((s.setStack st).setPC a)) := by
  unfold popStack
  rcases List.eq_nil_or_concat s.stack with h | ⟨st, a, h⟩
  · exact .inl ⟨h, by simp [h]⟩
  · exact .inr ⟨st, a, by simpa using h, by simp [h]⟩

/-! ## Keys -/

/-- Everything a key query can do (R99, R160). -/
theorem keyPressed_eq (k : Key) (s : State) :
    (∃ e, s.inputs.keyboardError = some e ∧ keyPressed k s = .error (.collaboratorError e)) ∨
    (s.inputs.keyboardError = none ∧ keyPressed k s = .ok (decide (k ∈ s.inputs.keysDown))) := by
  unfold keyPressed
  cases h : s.inputs.keyboardError with
  | none => exact .inr ⟨rfl, rfl⟩
  | some e => exact .inl ⟨e, rfl, rfl⟩

/-- Everything the first-key query can do (R88, R99, R160). -/
theorem firstPressed_eq (s : State) :
    (∃ e, s.inputs.keyboardError = some e ∧ firstPressed s = .error (.collaboratorError e)) ∨
    (s.inputs.keyboardError = none ∧ firstPressed s = .ok s.inputs.keysDown.head?) := by
  unfold firstPressed
  cases h : s.inputs.keyboardError with
  | none => exact .inr ⟨rfl, rfl⟩
  | some e => exact .inl ⟨e, rfl, rfl⟩

/-- A register value names a digit or key exactly when it is at most 15 (R46, R146). -/
theorem digit?_eq (v : Byte) :
    (15 < v.toNat ∧ digit? v = none) ∨ (v.toNat ≤ 15 ∧ digit? v = some (v.setWidth 4) ∧ (v.setWidth 4).toNat = v.toNat) := by
  unfold digit?
  by_cases h : 15 < v.toNat
  · exact .inl ⟨h, if_pos h⟩
  · refine .inr ⟨by omega, if_neg h, ?_⟩
    simp only [BitVec.toNat_setWidth]
    omega

/-! ## Timers -/

/-- A saturating decrement, as a number (R29). -/
theorem saturatingDec_toNat (t : Byte) : (saturatingDec t).toNat = t.toNat - 1 := by
  unfold saturatingDec
  split
  · next h => subst h; rfl
  · next h =>
    have h1 : t.toNat ≠ 0 := fun h0 => h (BitVec.eq_of_toNat_eq h0)
    have h2 : t.toNat < 256 := t.isLt
    simp only [BitVec.toNat_sub]
    simp
    omega

/-! ## Block stores and loads -/

/-- Everything a block store can do (R48, R53, R64): with every address writable it completes, and otherwise the first failing address is
reported and the bytes before it stay stored. Nothing but memory and the result changes. -/
theorem storeBytes_spec (bytes : List Byte) (a : Nat) (s : State) :
    ∃ t, storeBytes a bytes s = .next t ∧ t = { s with mem := t.mem, result := t.result } ∧
      (t.result = if bytes = [] then .ok
        else if a < 0x200 then .err (.protectedWrite a)
        else if a + bytes.length ≤ 4096 then .ok
        else .err (.addressOutOfRange (max a 4096))) ∧
      ∀ b, t.byteAt b =
        if 0x200 ≤ a ∧ a ≤ b ∧ b < a + bytes.length ∧ b < 4096 then bytes.getD (b - a) 0 else s.byteAt b := by
  induction bytes generalizing a s with
  | nil =>
    refine ⟨s.setResult .ok, rfl, rfl, by simp, fun b => ?_⟩
    rw [if_neg (by rw [List.length_nil]; omega)]
    rfl
  | cons x xs ih =>
    simp only [storeBytes, reduceCtorEq, if_false, List.length_cons]
    rcases memWrite_eq a x s with ⟨h, e⟩ | ⟨h, e⟩ | ⟨h1, h2, e⟩
    · refine ⟨s.raised (.addressOutOfRange a), by rw [e]; rfl, rfl, ?_, fun b => ?_⟩
      · rw [if_neg (by omega), if_neg (by omega), show max a 4096 = a by omega]; rfl
      · rw [if_neg (by omega)]; rfl
    · refine ⟨s.raised (.protectedWrite a), by rw [e]; rfl, rfl, ?_, fun b => ?_⟩
      · rw [if_pos h]; rfl
      · rw [if_neg (by omega)]; rfl
    · obtain ⟨t, ht, hf, hr, hb⟩ := ih (a + 1) (s.setByte a x)
      refine ⟨t, by rw [e]; exact ht, hf, ?_, fun b => ?_⟩
      · rw [hr, if_neg (show ¬ a < 0x200 by omega)]
        by_cases hx : xs = []
        · subst hx; simp; omega
        · have : xs.length ≠ 0 := by simpa using hx
          rw [if_neg hx, if_neg (by omega)]
          by_cases hl : a + 1 + xs.length ≤ 4096
          · rw [if_pos hl, if_pos (by omega)]
          · rw [if_neg hl, if_neg (by omega), show max (a + 1) 4096 = max a 4096 by omega]
      · rw [hb, State.byteAt_setByte]
        by_cases h3 : b = a
        · subst h3
          rw [if_neg (by omega), if_pos rfl, if_pos (by omega)]
          simp
        · by_cases h4 : 0x200 ≤ a + 1 ∧ a + 1 ≤ b ∧ b < a + 1 + xs.length ∧ b < 4096
          · rw [if_pos h4, if_pos (by omega), show b - a = (b - (a + 1)) + 1 by omega, List.getD_cons_succ]
          · rw [if_neg h4, if_neg h3, if_neg (by omega)]

/-- Everything a block load can do (R48, R50, R64): with every address readable it completes, and otherwise the first failing address is
reported and the registers before it stay loaded. Nothing but the registers and the result changes. -/
theorem loadRegs_spec (count a r : Nat) (s : State) (hr : r + count ≤ 16) :
    ∃ t, loadRegs a r count s = .next t ∧ t = { s with V := t.V, result := t.result } ∧
      (t.result = if count = 0 ∨ a + count ≤ 4096 then .ok else .err (.addressOutOfRange (max a 4096))) ∧
      ∀ q : RegIdx, t.reg q =
        if r ≤ q.toNat ∧ q.toNat < r + count ∧ a + (q.toNat - r) < 4096 then s.byteAt (a + (q.toNat - r)) else s.reg q := by
  induction count generalizing a r s with
  | zero =>
    refine ⟨s.setResult .ok, rfl, rfl, by simp, fun q => ?_⟩
    rw [if_neg (by omega)]
    rfl
  | succ k ih =>
    simp only [loadRegs]
    rcases memRead_eq a s with ⟨h, e⟩ | ⟨h, e⟩
    · refine ⟨s.raised (.addressOutOfRange a), by rw [e]; rfl, rfl, ?_, fun q => ?_⟩
      · rw [if_neg (by omega), show max a 4096 = a by omega]; rfl
      · rw [if_neg (by omega)]; rfl
    · obtain ⟨t, ht, hf, hres, hq⟩ := ih (a + 1) (r + 1) (s.setReg (BitVec.ofNat 4 r) (s.byteAt a)) (by omega)
      refine ⟨t, by rw [e]; exact ht, hf, ?_, fun q => ?_⟩
      · rw [hres]
        by_cases hk : k = 0 ∨ a + 1 + k ≤ 4096
        · rw [if_pos hk, if_pos (by omega)]
        · rw [if_neg hk, if_neg (by omega), show max (a + 1) 4096 = max a 4096 by omega]
      · have hq16 : q.toNat < 16 := q.isLt
        have hqr : q = BitVec.ofNat 4 r ↔ q.toNat = r := by
          rw [BitVec.toNat_eq, BitVec.toNat_ofNat]
          omega
        rw [hq, State.reg_setReg, State.setReg_byteAt]
        by_cases h3 : q.toNat = r
        · rw [if_neg (by omega), if_pos (hqr.mpr h3), if_pos (by omega)]
          congr 1
          omega
        · rw [if_neg (fun h => h3 (hqr.mp h))]
          by_cases h4 : r + 1 ≤ q.toNat ∧ q.toNat < r + 1 + k ∧ a + 1 + (q.toNat - (r + 1)) < 4096
          · rw [if_pos h4, if_pos (by omega)]
            congr 1
            omega
          · rw [if_neg h4, if_neg (by omega)]

end Sys2Proof.Machine
end

