-- ==== Sys2Proof/Laws/Display.lean ====
section
/-! SUPPORT. What the framebuffer operations do: one pixel, one sprite row, a whole draw. -/

namespace Sys2Proof.Machine

namespace State

@[simp] theorem setV_pixel (s : State) (v : Vector Byte 16) (X : Fin 64) (Y : Fin 32) : (s.setV v).pixel X Y = s.pixel X Y := rfl
@[simp] theorem setI_pixel (s : State) (v : Word) (X : Fin 64) (Y : Fin 32) : (s.setI v).pixel X Y = s.pixel X Y := rfl
@[simp] theorem setPC_pixel (s : State) (v : Word) (X : Fin 64) (Y : Fin 32) : (s.setPC v).pixel X Y = s.pixel X Y := rfl
@[simp] theorem setDT_pixel (s : State) (v : Byte) (X : Fin 64) (Y : Fin 32) : (s.setDT v).pixel X Y = s.pixel X Y := rfl
@[simp] theorem setST_pixel (s : State) (v : Byte) (X : Fin 64) (Y : Fin 32) : (s.setST v).pixel X Y = s.pixel X Y := rfl
@[simp] theorem setStack_pixel (s : State) (v : List Word) (X : Fin 64) (Y : Fin 32) : (s.setStack v).pixel X Y = s.pixel X Y := rfl
@[simp] theorem setMode_pixel (s : State) (v : Mode) (X : Fin 64) (Y : Fin 32) : (s.setMode v).pixel X Y = s.pixel X Y := rfl
@[simp] theorem setMem_pixel (s : State) (v : Memory) (X : Fin 64) (Y : Fin 32) : (s.setMem v).pixel X Y = s.pixel X Y := rfl
@[simp] theorem setTone_pixel (s : State) (v : Option Tone) (X : Fin 64) (Y : Fin 32) : (s.setTone v).pixel X Y = s.pixel X Y := rfl
@[simp] theorem setResult_pixel (s : State) (v : CycleResult) (X : Fin 64) (Y : Fin 32) : (s.setResult v).pixel X Y = s.pixel X Y := rfl
@[simp] theorem setReg_pixel (s : State) (x : RegIdx) (b : Byte) (X : Fin 64) (Y : Fin 32) : (s.setReg x b).pixel X Y = s.pixel X Y := rfl
@[simp] theorem setFlag_pixel (s : State) (c : Bool) (X : Fin 64) (Y : Fin 32) : (s.setFlag c).pixel X Y = s.pixel X Y := rfl

section setFlagWhen
variable (s : State) (c : Bool)
@[simp] theorem setFlagWhen_I : (s.setFlagWhen c).I = s.I := rfl
@[simp] theorem setFlagWhen_PC : (s.setFlagWhen c).PC = s.PC := rfl
@[simp] theorem setFlagWhen_DT : (s.setFlagWhen c).DT = s.DT := rfl
@[simp] theorem setFlagWhen_ST : (s.setFlagWhen c).ST = s.ST := rfl
@[simp] theorem setFlagWhen_stack : (s.setFlagWhen c).stack = s.stack := rfl
@[simp] theorem setFlagWhen_mode : (s.setFlagWhen c).mode = s.mode := rfl
@[simp] theorem setFlagWhen_mem : (s.setFlagWhen c).mem = s.mem := rfl
@[simp] theorem setFlagWhen_FB : (s.setFlagWhen c).FB = s.FB := rfl
@[simp] theorem setFlagWhen_font : (s.setFlagWhen c).font = s.font := rfl
@[simp] theorem setFlagWhen_inputs : (s.setFlagWhen c).inputs = s.inputs := rfl
@[simp] theorem setFlagWhen_upcoming : (s.setFlagWhen c).upcoming = s.upcoming := rfl
@[simp] theorem setFlagWhen_freeIdx : (s.setFlagWhen c).freeIdx = s.freeIdx := rfl
@[simp] theorem setFlagWhen_tone : (s.setFlagWhen c).tone = s.tone := rfl
@[simp] theorem setFlagWhen_result : (s.setFlagWhen c).result = s.result := rfl
@[simp] theorem setFlagWhen_byteAt (addr : Nat) : (s.setFlagWhen c).byteAt addr = s.byteAt addr := rfl
@[simp] theorem setFlagWhen_pixel (X : Fin 64) (Y : Fin 32) : (s.setFlagWhen c).pixel X Y = s.pixel X Y := rfl
end setFlagWhen

section xorPixel
variable (s : State) (x : Fin 64) (y : Fin 32) (bit : Bool)
@[simp] theorem xorPixel_V : (s.xorPixel x y bit).V = s.V := rfl
@[simp] theorem xorPixel_I : (s.xorPixel x y bit).I = s.I := rfl
@[simp] theorem xorPixel_PC : (s.xorPixel x y bit).PC = s.PC := rfl
@[simp] theorem xorPixel_DT : (s.xorPixel x y bit).DT = s.DT := rfl
@[simp] theorem xorPixel_ST : (s.xorPixel x y bit).ST = s.ST := rfl
@[simp] theorem xorPixel_stack : (s.xorPixel x y bit).stack = s.stack := rfl
@[simp] theorem xorPixel_mode : (s.xorPixel x y bit).mode = s.mode := rfl
@[simp] theorem xorPixel_mem : (s.xorPixel x y bit).mem = s.mem := rfl
@[simp] theorem xorPixel_font : (s.xorPixel x y bit).font = s.font := rfl
@[simp] theorem xorPixel_inputs : (s.xorPixel x y bit).inputs = s.inputs := rfl
@[simp] theorem xorPixel_upcoming : (s.xorPixel x y bit).upcoming = s.upcoming := rfl
@[simp] theorem xorPixel_freeIdx : (s.xorPixel x y bit).freeIdx = s.freeIdx := rfl
@[simp] theorem xorPixel_tone : (s.xorPixel x y bit).tone = s.tone := rfl
@[simp] theorem xorPixel_result : (s.xorPixel x y bit).result = s.result := rfl
@[simp] theorem xorPixel_reg (r : RegIdx) : (s.xorPixel x y bit).reg r = s.reg r := rfl
@[simp] theorem xorPixel_byteAt (addr : Nat) : (s.xorPixel x y bit).byteAt addr = s.byteAt addr := rfl
end xorPixel

section clearDisplay
variable (s : State)
@[simp] theorem clearDisplay_V : (s.clearDisplay).V = s.V := rfl
@[simp] theorem clearDisplay_I : (s.clearDisplay).I = s.I := rfl
@[simp] theorem clearDisplay_PC : (s.clearDisplay).PC = s.PC := rfl
@[simp] theorem clearDisplay_DT : (s.clearDisplay).DT = s.DT := rfl
@[simp] theorem clearDisplay_ST : (s.clearDisplay).ST = s.ST := rfl
@[simp] theorem clearDisplay_stack : (s.clearDisplay).stack = s.stack := rfl
@[simp] theorem clearDisplay_mode : (s.clearDisplay).mode = s.mode := rfl
@[simp] theorem clearDisplay_mem : (s.clearDisplay).mem = s.mem := rfl
@[simp] theorem clearDisplay_font : (s.clearDisplay).font = s.font := rfl
@[simp] theorem clearDisplay_inputs : (s.clearDisplay).inputs = s.inputs := rfl
@[simp] theorem clearDisplay_upcoming : (s.clearDisplay).upcoming = s.upcoming := rfl
@[simp] theorem clearDisplay_freeIdx : (s.clearDisplay).freeIdx = s.freeIdx := rfl
@[simp] theorem clearDisplay_tone : (s.clearDisplay).tone = s.tone := rfl
@[simp] theorem clearDisplay_result : (s.clearDisplay).result = s.result := rfl
@[simp] theorem clearDisplay_reg (r : RegIdx) : (s.clearDisplay).reg r = s.reg r := rfl
@[simp] theorem clearDisplay_byteAt (addr : Nat) : (s.clearDisplay).byteAt addr = s.byteAt addr := rfl
end clearDisplay

theorem setFlagWhen_reg (s : State) (c : Bool) (r : RegIdx) :
    (s.setFlagWhen c).reg r = if r = vf ∧ c = true then 0x01 else s.reg r := by
  rw [setFlagWhen, reg_setReg]
  by_cases h : r = vf
  · subst h; cases c <;> simp
  · rw [if_neg h, if_neg (fun h' => h h'.1)]

/-- One pixel is XORed with the bit, every other pixel is as before (R36). -/
theorem pixel_xorPixel (s : State) (x X : Fin 64) (y Y : Fin 32) (bit : Bool) :
    (s.xorPixel x y bit).pixel X Y = if X = x ∧ Y = y then (s.pixel X Y ^^ bit) else s.pixel X Y := by
  unfold xorPixel pixel setFB
  by_cases hY : Y = y
  · subst hY
    cases bit with
    | false => simp
    | true =>
      by_cases h : X = x
      · subst h; simp
      · have hne : ¬ X.val = x.val := fun h' => h (Fin.ext h')
        simp [h, hne]
  · have hne : y.val ≠ Y.val := fun h => hY (Fin.ext h.symm)
    simp [hY, hne]

@[simp] theorem pixel_clearDisplay (s : State) (X : Fin 64) (Y : Fin 32) : s.clearDisplay.pixel X Y = false := by
  simp [clearDisplay, pixel, setFB]

end State

/-- The pixel of column `c` of sprite row `r` (R139). -/
def SpriteAt (px py : Byte) (r c : Nat) (X : Fin 64) (Y : Fin 32) : Prop :=
  X.val = (px.toNat + c) % 64 ∧ Y.val = (py.toNat + r) % 32

/-- The columns of a row are distinct pixels (R143). -/
theorem SpriteAt.col_unique {px py : Byte} {r c c' : Nat} {X : Fin 64} {Y : Fin 32} (h : SpriteAt px py r c X Y)
    (h' : SpriteAt px py r c' X Y) (hc : c < 8) (hc' : c' < 8) : c = c' := by
  obtain ⟨h1, _⟩ := h
  obtain ⟨h2, _⟩ := h'
  omega

/-- The rows of a sprite are distinct pixels (R143). -/
theorem SpriteAt.row_unique {px py : Byte} {r r' c c' : Nat} {X : Fin 64} {Y : Fin 32} (h : SpriteAt px py r c X Y)
    (h' : SpriteAt px py r' c' X Y) (hr : r < 32) (hr' : r' < 32) : r = r' := by
  obtain ⟨_, h1⟩ := h
  obtain ⟨_, h2⟩ := h'
  omega

theorem drawPixel_pixel (px py : Byte) (r : Nat) (b : Byte) (s : State) (c : Nat) (X : Fin 64) (Y : Fin 32) :
    (drawPixel px py r b s c).pixel X Y ≠ s.pixel X Y ↔ SpriteAt px py r c X Y ∧ b.getLsbD (7 - c) = true := by
  simp only [drawPixel, State.setFlagWhen_pixel, State.pixel_xorPixel, SpriteAt, Fin.ext_iff, Fin.val_ofNat]
  by_cases h : X.val = (px.toNat + c) % 64 ∧ Y.val = (py.toNat + r) % 32
  · rw [if_pos h]
    cases s.pixel X Y <;> cases b.getLsbD (7 - c) <;> simp [h]
  · rw [if_neg h]
    simp [h]

theorem drawPixel_reg (px py : Byte) (r : Nat) (b : Byte) (s : State) (c : Nat) (q : RegIdx) :
    (drawPixel px py r b s c).reg q =
      if q = vf ∧ (b.getLsbD (7 - c) && s.pixel (Fin.ofNat 64 (px.toNat + c)) (Fin.ofNat 32 (py.toNat + r))) = true
      then 0x01 else s.reg q := by
  rw [drawPixel, State.setFlagWhen_reg, State.xorPixel_reg]

/-- The first `m` columns of a sprite row: the pixels of its 1 bits are toggled, `VF` becomes 1 if one of them was set, and nothing
else changes (R138 to R141). -/
theorem drawCols_spec (px py : Byte) (r : Nat) (b : Byte) (s : State) (m : Nat) (hm : m ≤ 8) :
    ∃ t, (List.range m).foldl (drawPixel px py r b) s = t ∧ t = { s with V := t.V, FB := t.FB } ∧
      (∀ q, q ≠ vf → t.reg q = s.reg q) ∧
      (∀ X Y, t.pixel X Y ≠ s.pixel X Y ↔ ∃ c, c < m ∧ SpriteAt px py r c X Y ∧ b.getLsbD (7 - c) = true) ∧
      ((∃ X Y, s.pixel X Y = true ∧ t.pixel X Y = false) → t.reg vf = 0x01) ∧
      ((¬ ∃ X Y, s.pixel X Y = true ∧ t.pixel X Y = false) → t.reg vf = s.reg vf) := by
  induction m with
  | zero => exact ⟨s, rfl, rfl, by simp, by simp, by simp, by simp⟩
  | succ m ih =>
    obtain ⟨u, hu, hf, hq, hp, hv1, hv0⟩ := ih (by omega)
    refine ⟨drawPixel px py r b u m, ?_, ?_, ?_, ?_, ?_⟩
    · rw [List.range_succ, List.foldl_append, hu]; rfl
    · rw [hf]; rfl
    · intro q hne
      rw [drawPixel_reg, if_neg (fun h => hne h.1), hq q hne]
    · intro X Y
      have h1 := drawPixel_pixel px py r b u m X Y
      have h2 := hp X Y
      have hd : (SpriteAt px py r m X Y ∧ b.getLsbD (7 - m) = true) →
          ¬ ∃ c, c < m ∧ SpriteAt px py r c X Y ∧ b.getLsbD (7 - c) = true := by
        rintro ⟨ha, _⟩ ⟨c, hc, hb, _⟩
        exact absurd (ha.col_unique hb (by omega) (by omega)) (by omega)
      have h3 : (∃ c, c < m + 1 ∧ SpriteAt px py r c X Y ∧ b.getLsbD (7 - c) = true) ↔
          (∃ c, c < m ∧ SpriteAt px py r c X Y ∧ b.getLsbD (7 - c) = true) ∨
          (SpriteAt px py r m X Y ∧ b.getLsbD (7 - m) = true) := by
        constructor
        · rintro ⟨c, hc, h⟩
          by_cases hcm : c = m
          · subst hcm; exact .inr h
          · exact .inl ⟨c, by omega, h⟩
        · rintro (⟨c, hc, h⟩ | h)
          · exact ⟨c, by omega, h⟩
          · exact ⟨m, by omega, h⟩
      rw [h3, ← h1, ← h2]
      rw [← h1, ← h2] at hd
      revert hd
      cases (drawPixel px py r b u m).pixel X Y <;> cases u.pixel X Y <;> cases s.pixel X Y <;> simp
    · have hX : SpriteAt px py r m (Fin.ofNat 64 (px.toNat + m)) (Fin.ofNat 32 (py.toNat + r)) := ⟨rfl, rfl⟩
      have huX : u.pixel (Fin.ofNat 64 (px.toNat + m)) (Fin.ofNat 32 (py.toNat + r)) =
          s.pixel (Fin.ofNat 64 (px.toNat + m)) (Fin.ofNat 32 (py.toNat + r)) := by
        by_contra h
        obtain ⟨c, hc, hb, _⟩ := (hp _ _).mp h
        exact absurd (hX.col_unique hb (by omega) (by omega)) (by omega)
      have hEx : (∃ X Y, s.pixel X Y = true ∧ (drawPixel px py r b u m).pixel X Y = false) ↔
          (∃ X Y, s.pixel X Y = true ∧ u.pixel X Y = false) ∨
          (b.getLsbD (7 - m) && u.pixel (Fin.ofNat 64 (px.toNat + m)) (Fin.ofNat 32 (py.toNat + r))) = true := by
        constructor
        · rintro ⟨X, Y, hs, ht⟩
          by_cases hu0 : u.pixel X Y = false
          · exact .inl ⟨X, Y, hs, hu0⟩
          · have hne : (drawPixel px py r b u m).pixel X Y ≠ u.pixel X Y := by
              rw [ht]; exact Ne.symm hu0
            obtain ⟨⟨ha, hb⟩, hbit⟩ := (drawPixel_pixel px py r b u m X Y).mp hne
            have hXe : X = Fin.ofNat 64 (px.toNat + m) := Fin.ext ha
            have hYe : Y = Fin.ofNat 32 (py.toNat + r) := Fin.ext hb
            subst hXe hYe
            exact .inr (by rw [hbit, huX, hs]; rfl)
        · rintro (⟨X, Y, hs, hu0⟩ | h)
          · refine ⟨X, Y, hs, ?_⟩
            by_contra hne
            have hne' : (drawPixel px py r b u m).pixel X Y ≠ u.pixel X Y := by rw [hu0]; exact hne
            obtain ⟨ha, _⟩ := (drawPixel_pixel px py r b u m X Y).mp hne'
            obtain ⟨c, hc, hb, _⟩ := (hp X Y).mp (by rw [hs, hu0]; simp)
            exact absurd (ha.col_unique hb (by omega) (by omega)) (by omega)
          · rw [Bool.and_eq_true] at h
            refine ⟨_, _, huX ▸ h.2, ?_⟩
            have := (drawPixel_pixel px py r b u m _ _).mpr ⟨hX, h.1⟩
            rw [h.2] at this
            simpa using this
      constructor
      · intro h
        rw [drawPixel_reg]
        rcases hEx.mp h with h | h
        · rw [hv1 h]; split <;> rfl
        · rw [if_pos ⟨rfl, h⟩]
      · intro h
        rw [hEx, not_or] at h
        rw [drawPixel_reg, if_neg (by simp only [true_and]; exact h.2), hv0 h.1]

/-- Everything a draw can do (R138 to R144): the rows whose byte can be read are drawn, the first address that does not exist is reported,
`VF` becomes 1 exactly when a pixel went from set to unset, and nothing else changes. -/
theorem drawRows_spec (px py : Byte) (addr : Nat) (count r : Nat) (s : State) (hr : r + count ≤ 16) :
    ∃ t, drawRows px py addr r count s = .next t ∧ t = { s with V := t.V, FB := t.FB, result := t.result } ∧
      (∀ q, q ≠ vf → t.reg q = s.reg q) ∧
      (t.result = if count = 0 ∨ addr + r + count ≤ 4096 then .ok else .err (.addressOutOfRange (max (addr + r) 4096))) ∧
      (∀ X Y, t.pixel X Y ≠ s.pixel X Y ↔ ∃ q c, r ≤ q ∧ q < r + count ∧ addr + q < 4096 ∧ c < 8 ∧
        SpriteAt px py q c X Y ∧ (s.byteAt (addr + q)).getLsbD (7 - c) = true) ∧
      ((∃ X Y, s.pixel X Y = true ∧ t.pixel X Y = false) → t.reg vf = 0x01) ∧
      ((¬ ∃ X Y, s.pixel X Y = true ∧ t.pixel X Y = false) → t.reg vf = s.reg vf) := by
  induction count generalizing r s with
  | zero =>
    refine ⟨s.setResult .ok, rfl, rfl, fun _ _ => rfl, rfl, fun X Y => ?_, ?_, fun _ => rfl⟩
    · constructor
      · intro h; exact absurd rfl h
      · rintro ⟨q, c, h1, h2, _⟩; omega
    · rintro ⟨X, Y, h1, h2⟩
      rw [State.setResult_pixel, h1] at h2
      cases h2
  | succ k ih =>
    simp only [drawRows]
    rcases memRead_eq (addr + r) s with ⟨h, e⟩ | ⟨h, e⟩
    · refine ⟨s.raised (.addressOutOfRange (addr + r)), by rw [e]; rfl, rfl, fun _ _ => rfl, ?_, fun X Y => ?_, ?_, fun _ => rfl⟩
      · rw [if_neg (by omega), show max (addr + r) 4096 = addr + r by omega]; rfl
      · constructor
        · intro h; exact absurd rfl h
        · rintro ⟨q, c, h1, h2, h3, _⟩; omega
      · rintro ⟨X, Y, h1, h2⟩
        have h2' : s.pixel X Y = false := h2
        rw [h1] at h2'
        cases h2'
    · obtain ⟨u, hu, huf, huq, hup, huv1, huv0⟩ := drawCols_spec px py r (s.byteAt (addr + r)) s 8 (le_refl 8)
      obtain ⟨t, ht, htf, htq, htr, htp, htv1, htv0⟩ := ih (r + 1) u (by omega)
      have hbyte : ∀ a, u.byteAt a = s.byteAt a := fun a => by rw [huf]; rfl
      -- a pixel changed by this row is not changed by a later one
      have hrow : ∀ X Y, u.pixel X Y ≠ s.pixel X Y → t.pixel X Y = u.pixel X Y := by
        intro X Y h1
        by_contra h2
        obtain ⟨c, hc, hs1, _⟩ := (hup X Y).mp h1
        obtain ⟨q, c', hq1, hq2, _, hc', hs2, _⟩ := (htp X Y).mp h2
        exact absurd (hs1.row_unique hs2 (by omega) (by omega)) (by omega)
      have hor : ∀ X Y, t.pixel X Y ≠ s.pixel X Y ↔ (u.pixel X Y ≠ s.pixel X Y ∨ t.pixel X Y ≠ u.pixel X Y) := by
        intro X Y
        have := hrow X Y
        revert this
        cases t.pixel X Y <;> cases u.pixel X Y <;> cases s.pixel X Y <;> simp
      have hEx : (∃ X Y, s.pixel X Y = true ∧ t.pixel X Y = false) ↔
          (∃ X Y, s.pixel X Y = true ∧ u.pixel X Y = false) ∨ (∃ X Y, u.pixel X Y = true ∧ t.pixel X Y = false) := by
        constructor
        · rintro ⟨X, Y, h1, h2⟩
          cases h3 : u.pixel X Y
          · exact .inl ⟨X, Y, h1, h3⟩
          · exact .inr ⟨X, Y, h3, h2⟩
        · rintro (⟨X, Y, h1, h2⟩ | ⟨X, Y, h1, h2⟩)
          · exact ⟨X, Y, h1, by rw [hrow X Y (by rw [h1, h2]; simp), h2]⟩
          · refine ⟨X, Y, ?_, h2⟩
            by_contra h3
            have h4 := hrow X Y (by rw [h1]; exact Ne.symm h3)
            rw [h1, h2] at h4
            cases h4
      refine ⟨t, ?_, ?_, fun q hq => by rw [htq q hq, huq q hq], ?_, fun X Y => ?_, fun h => ?_, fun h => ?_⟩
      · rw [e, ← ht, ← hu]; rfl
      · rw [htf, huf]
      · rw [htr]
        by_cases hk : k = 0 ∨ addr + (r + 1) + k ≤ 4096
        · rw [if_pos hk, if_pos (by omega)]
        · rw [if_neg hk, if_neg (by omega), show max (addr + (r + 1)) 4096 = max (addr + r) 4096 by omega]
      · rw [hor, hup, htp]
        constructor
        · rintro (⟨c, hc, h1, h2⟩ | ⟨q, c, h1, h2, h3, h4, h5, h6⟩)
          · exact ⟨r, c, by omega, by omega, h, hc, h1, h2⟩
          · exact ⟨q, c, by omega, by omega, h3, h4, h5, by rw [← hbyte]; exact h6⟩
        · rintro ⟨q, c, h1, h2, h3, h4, h5, h6⟩
          by_cases hq : q = r
          · subst hq; exact .inl ⟨c, h4, h5, h6⟩
          · exact .inr ⟨q, c, by omega, by omega, h3, h4, h5, by rw [hbyte]; exact h6⟩
      · rcases hEx.mp h with h | h
        · by_cases h' : ∃ X Y, u.pixel X Y = true ∧ t.pixel X Y = false
          · exact htv1 h'
          · rw [htv0 h', huv1 h]
        · exact htv1 h
      · rw [hEx, not_or] at h
        rw [htv0 h.2, huv0 h.1]

end Sys2Proof.Machine
end

