-- ==== Sys2Proof/Laws/Exec.lean ====
section
/-! SUPPORT. Everything an instruction can do, said once: `exec_effect`. -/

namespace Sys2Proof.Machine

/-- A block store's effect (R48, R53, R64). -/
def StoreEffect (bytes : List Byte) (s t : State) : Prop :=
  t = { s with mem := t.mem, result := t.result } ∧
  (t.result = if s.I.toNat < 0x200 then .err (.protectedWrite s.I.toNat)
    else if s.I.toNat + bytes.length ≤ 4096 then .ok else .err (.addressOutOfRange (max s.I.toNat 4096))) ∧
  ∀ b, t.byteAt b = if 0x200 ≤ s.I.toNat ∧ s.I.toNat ≤ b ∧ b < s.I.toNat + bytes.length ∧ b < 4096
    then bytes.getD (b - s.I.toNat) 0 else s.byteAt b

/-- A key skip's effect (R146, R147, R164). -/
def KeyEffect (want : Bool) (x : RegIdx) (s t : State) : Prop :=
  (15 < (s.reg x).toNat ∧ t = s.raised (.invalidKey (s.reg x))) ∨
  ((s.reg x).toNat ≤ 15 ∧ ∃ e, s.inputs.keyboardError = some e ∧ t = s.raised (.collaboratorError e)) ∨
  ((s.reg x).toNat ≤ 15 ∧ s.inputs.keyboardError = none ∧
    t = (s.skipIf (decide ((s.reg x).setWidth 4 ∈ s.inputs.keysDown) == want)).setResult .ok)

/-- What each instruction does to a state. -/
def Effect : Instr → State → State → Prop
  | .cls, s, t => t = s.clearDisplay.setResult .ok
  | .ret, s, t => (s.stack = [] ∧ t = s.raised .emptyStack) ∨
      ∃ st a, s.stack = st ++ [a] ∧ t = ((s.setStack st).setPC a).setResult .ok
  | .jp nnn, s, t => t = (s.setPC (zextLit nnn)).setResult .ok
  | .call nnn, s, t => (16 ≤ s.stack.length ∧ t = s.raised .stackOverflow) ∨
      (s.stack.length < 16 ∧ t = ((s.setStack (s.stack ++ [s.PC])).setPC (zextLit nnn)).setResult .ok)
  | .seImm x kk, s, t => t = (s.skipIf (decide (s.reg x = kk))).setResult .ok
  | .sneImm x kk, s, t => t = (s.skipIf (decide (s.reg x ≠ kk))).setResult .ok
  | .seReg x y, s, t => t = (s.skipIf (decide (s.reg x = s.reg y))).setResult .ok
  | .sneReg x y, s, t => t = (s.skipIf (decide (s.reg x ≠ s.reg y))).setResult .ok
  | .ldImm x kk, s, t => t = (s.setReg x kk).setResult .ok
  | .addImm x kk, s, t => t = (s.setReg x (s.reg x + kk)).setResult .ok
  | .ldReg x y, s, t => t = (s.setReg x (s.reg y)).setResult .ok
  | .orReg x y, s, t => t = (s.setReg x (s.reg x ||| s.reg y)).setResult .ok
  | .andReg x y, s, t => t = (s.setReg x (s.reg x &&& s.reg y)).setResult .ok
  | .xorReg x y, s, t => t = (s.setReg x (s.reg x ^^^ s.reg y)).setResult .ok
  | .addReg x y, s, t =>
      t = ((s.setReg x (s.reg x + s.reg y)).setFlag (addCarry (s.reg x) (s.reg y))).setResult .ok
  | .subReg x y, s, t =>
      t = ((s.setFlag (subFlag (s.reg x) (s.reg y))).setReg x (s.reg x - s.reg y)).setResult .ok
  | .shr x _, s, t => t = ((s.setFlag (shrFlag (s.reg x))).setReg x (s.reg x >>> 1)).setResult .ok
  | .subnReg x y, s, t =>
      t = ((s.setFlag (subnFlag (s.reg x) (s.reg y))).setReg x (s.reg y - s.reg x)).setResult .ok
  | .shl x _, s, t => t = ((s.setFlag (shlFlag (s.reg x))).setReg x (s.reg x <<< 1)).setResult .ok
  | .ldI nnn, s, t => t = (s.setI (zextLit nnn)).setResult .ok
  | .jpV0 nnn, s, t => t = (s.setPC (zextLit nnn + zextByte (s.reg 0))).setResult .ok
  | .rnd x kk, s, t => t = (s.setReg x (s.inputs.rnd &&& kk)).setResult .ok
  | .drw x y n, s, t =>
      t = { s with V := t.V, FB := t.FB, result := t.result } ∧ (∀ q, q ≠ vf → t.reg q = s.reg q) ∧
      (t.result = if n.toNat = 0 ∨ s.I.toNat + n.toNat ≤ 4096 then .ok
        else .err (.addressOutOfRange (max s.I.toNat 4096))) ∧
      (∀ X Y, t.pixel X Y ≠ s.pixel X Y ↔ ∃ q c, q < n.toNat ∧ s.I.toNat + q < 4096 ∧ c < 8 ∧
        SpriteAt (s.reg x) (s.reg y) q c X Y ∧ (s.byteAt (s.I.toNat + q)).getLsbD (7 - c) = true) ∧
      ((∃ X Y, s.pixel X Y = true ∧ t.pixel X Y = false) → t.reg vf = 0x01) ∧
      ((¬ ∃ X Y, s.pixel X Y = true ∧ t.pixel X Y = false) → t.reg vf = 0x00)
  | .skp x, s, t => KeyEffect true x s t
  | .sknp x, s, t => KeyEffect false x s t
  | .ldVxDt x, s, t => t = (s.setReg x s.DT).setResult .ok
  | .ldVxK x, s, t => t = (s.setMode (.awaitingKey x)).setResult .ok
  | .ldDtVx x, s, t => t = (s.setDT (s.reg x)).setResult .ok
  | .ldStVx x, s, t => t = (s.setST (s.reg x)).setResult .ok
  | .addIVx x, s, t => t = (s.setI (s.I + zextByte (s.reg x))).setResult .ok
  | .ldFVx x, s, t => (15 < (s.reg x).toNat ∧ t = s.raised (.invalidGlyph (s.reg x))) ∨
      ((s.reg x).toNat ≤ 15 ∧ t = (s.setI (glyphAddress s.font.base ((s.reg x).setWidth 4))).setResult .ok)
  | .ldBVx x, s, t => StoreEffect (bcdDigits (s.reg x)) s t
  | .ldMemVx x, s, t => StoreEffect (s.regsUpTo x) s t
  | .ldVxMem x, s, t =>
      t = { s with V := t.V, result := t.result } ∧
      (t.result = if s.I.toNat + x.toNat < 4096 then .ok else .err (.addressOutOfRange (max s.I.toNat 4096))) ∧
      ∀ q : RegIdx, t.reg q =
        if q.toNat ≤ x.toNat ∧ s.I.toNat + q.toNat < 4096 then s.byteAt (s.I.toNat + q.toNat) else s.reg q

theorem storeBytes_effect (bytes : List Byte) (hb : bytes ≠ []) (s : State) :
    ∃ t, storeBytes s.dataAddr bytes s = .next t ∧ StoreEffect bytes s t := by
  obtain ⟨t, ht, hf, hr, hm⟩ := storeBytes_spec bytes s.dataAddr s
  rw [if_neg hb] at hr
  exact ⟨t, ht, hf, hr, hm⟩

theorem skipOnKey_effect (want : Bool) (x : RegIdx) (s : State) :
    ∃ t, skipOnKey want x s = .next t ∧ KeyEffect want x s t := by
  unfold skipOnKey KeyEffect
  rcases digit?_eq (s.reg x) with ⟨h, e⟩ | ⟨h, e, _⟩
  · exact ⟨_, by rw [e]; rfl, .inl ⟨h, rfl⟩⟩
  · rcases keyPressed_eq ((s.reg x).setWidth 4) s with ⟨c, hc, e'⟩ | ⟨hc, e'⟩
    · exact ⟨_, by rw [e]; simp only [e']; rfl, .inr (.inl ⟨h, c, hc, rfl⟩)⟩
    · exact ⟨_, by rw [e]; simp only [e']; rfl, .inr (.inr ⟨h, hc, rfl⟩)⟩

/-- Every instruction ends in a next state, and that state is the instruction's effect. -/
theorem exec_effect (i : Instr) (s : State) : ∃ t, exec i s = .next t ∧ Effect i s t := by
  cases i with
  | ret =>
    rcases popStack_eq s with ⟨h, e⟩ | ⟨st, a, h, e⟩
    · exact ⟨_, by simp only [exec, execRet, e]; rfl, .inl ⟨h, rfl⟩⟩
    · exact ⟨_, by simp only [exec, execRet, e]; rfl, .inr ⟨st, a, h, rfl⟩⟩
  | call nnn =>
    rcases pushStack_eq (zextLit nnn) s with ⟨h, e⟩ | ⟨h, e⟩
    · exact ⟨_, by simp only [exec, execCall, e]; rfl, .inl ⟨h, rfl⟩⟩
    · exact ⟨_, by simp only [exec, execCall, e]; rfl, .inr ⟨h, rfl⟩⟩
  | drw x y n =>
    have hn : n.toNat < 16 := n.isLt
    obtain ⟨t, ht, hf, hq, hr, hp, h1, h0⟩ := drawRows_spec (s.reg x) (s.reg y) s.dataAddr n.toNat 0 (s.setFlag false) (by omega)
    refine ⟨t, ht, hf, fun q hne => by rw [hq q hne, State.reg_setFlag, if_neg hne], hr, fun X Y => ?_, h1, fun h => ?_⟩
    · rw [← State.setFlag_pixel s false, hp]
      constructor
      · rintro ⟨q, c, _, h2, h3, h4, h5, h6⟩; exact ⟨q, c, by omega, h3, h4, h5, h6⟩
      · rintro ⟨q, c, h2, h3, h4, h5, h6⟩; exact ⟨q, c, by omega, by omega, h3, h4, h5, h6⟩
    · rw [h0 h, State.reg_setFlag]; rfl
  | skp x => exact skipOnKey_effect true x s
  | sknp x => exact skipOnKey_effect false x s
  | ldFVx x =>
    rcases digit?_eq (s.reg x) with ⟨h, e⟩ | ⟨h, e, _⟩
    · exact ⟨_, by simp only [exec, execLdFVx, e]; rfl, .inl ⟨h, rfl⟩⟩
    · exact ⟨_, by simp only [exec, execLdFVx, e]; rfl, .inr ⟨h, rfl⟩⟩
  | ldBVx x => exact storeBytes_effect _ (by simp [bcdDigits]) s
  | ldMemVx x => exact storeBytes_effect _ (fun h => by simpa using congrArg List.length h) s
  | ldVxMem x =>
    have hx : x.toNat < 16 := x.isLt
    obtain ⟨t, ht, hf, hr, hq⟩ := loadRegs_spec (x.toNat + 1) s.dataAddr 0 s (by omega)
    refine ⟨t, ht, hf, ?_, fun q => ?_⟩
    · rw [hr]
      exact if_congr (by simp only [State.dataAddr]; omega) rfl rfl
    · rw [hq]
      exact if_congr (by simp only [State.dataAddr]; omega) rfl rfl
  | _ => exact ⟨_, rfl, rfl⟩

/-- The inversion of `exec`: a next state it answers is the instruction's effect. -/
theorem effect_of_exec {i : Instr} {s t : State} (h : exec i s = .next t) : Effect i s t := by
  obtain ⟨u, hu, he⟩ := exec_effect i s
  rw [h] at hu
  cases hu
  exact he

end Sys2Proof.Machine
end

