-- ==== Sys2Proof/Laws/Cycle.lean ====
section
/-! SUPPORT. Everything a step can do, said once: `step_cases`. -/

namespace Sys2Proof.Machine

theorem startCycle_eq (s : State) : startCycle s = s.begun := rfl

theorem saturatingDec_eq (t : Byte) : saturatingDec t = decremented t := by
  have h : t.toNat < 256 := t.isLt
  refine BitVec.eq_of_toNat_eq ?_
  rw [saturatingDec_toNat, decremented, BitVec.toNat_ofNat]
  omega

theorem decremented_toNat (t : Byte) : (decremented t).toNat = t.toNat - 1 := by
  rw [← saturatingDec_eq, saturatingDec_toNat]

theorem signalTone_begun (s : State) : s.begun.signalTone = { s.begun with tone := some (toneOf s.ST) } := by
  have h : (if s.ST = 0 then Tone.stopBeep else Tone.beep) = toneOf s.ST := by
    unfold toneOf
    by_cases h0 : s.ST = 0
    · rw [h0]; rfl
    · rw [if_neg h0, if_pos (Nat.pos_of_ne_zero fun h1 => h0 (BitVec.eq_of_toNat_eq h1))]
  rw [← h]
  rfl

theorem timed_eq (s : State) : s.begun.signalTone.decrementTimers = s.timed := by
  rw [signalTone_begun, State.decrementTimers, State.timed, ← saturatingDec_eq, ← saturatingDec_eq]
  rfl

/-- Everything a waiting cycle can do (R88). -/
theorem waitForKey_eq (r : RegIdx) (s : State) :
    (∃ e, s.inputs.keyboardError = some e ∧ waitForKey r s = s.raised (.collaboratorError e)) ∨
    (s.inputs.keyboardError = none ∧ s.inputs.keysDown = [] ∧ waitForKey r s = s) ∨
    (∃ k ks, s.inputs.keyboardError = none ∧ s.inputs.keysDown = k :: ks ∧
      waitForKey r s = (s.setReg r (zextKey k)).setMode .running) := by
  unfold waitForKey
  rcases firstPressed_eq s with ⟨e, h, he⟩ | ⟨h, he⟩
  · exact .inl ⟨e, h, by rw [he]⟩
  · cases hk : s.inputs.keysDown with
    | nil => exact .inr (.inl ⟨h, rfl, by rw [he, hk]; rfl⟩)
    | cons k ks => exact .inr (.inr ⟨k, ks, h, rfl, by rw [he, hk]; rfl⟩)

/-- Everything the fetch can do (R91 to R94). -/
theorem fetchAndDecode_eq (s : State) :
    (4096 ≤ s.PC.toNat ∧ fetchAndDecode s = .ended (s.raised (.addressOutOfRange s.PC.toNat))) ∨
    (s.PC.toNat = 4095 ∧ fetchAndDecode s = .ended (s.raised (.addressOutOfRange 4096))) ∨
    (s.PC.toNat + 1 < 4096 ∧ decode s.wordAtPC = .error (.unmatched s.wordAtPC) ∧
      fetchAndDecode s = .ended (s.advance.raised (.unhandledInstruction s.wordAtPC))) ∨
    (s.PC.toNat + 1 < 4096 ∧ ∃ i, decode s.wordAtPC = .ok i ∧ fetchAndDecode s = .execute i s.advance) := by
  unfold fetchAndDecode
  rcases memReadWord_eq s.PC.toNat s with ⟨h, e⟩ | ⟨h, e⟩ | ⟨h, e⟩
  · exact .inl ⟨h, by rw [e]⟩
  · exact .inr (.inl ⟨h, by rw [e]⟩)
  · rw [e]
    change _ ∨ _ ∨ (_ ∧ _ ∧ (match decode s.wordAtPC with | .error _ => _ | .ok i => _) = _) ∨ _
    cases hd : decode s.wordAtPC with
    | error d =>
      obtain rfl := decode_error hd
      exact .inr (.inr (.inl ⟨h, rfl, rfl⟩))
    | ok i =>
      refine .inr (.inr (.inr ⟨h, i, rfl, ?_⟩))
      change (match decode s.wordAtPC with | .error _ => _ | .ok i => _) = _
      rw [hd]

/-- Everything a step can do (R87 to R95): a waiting cycle, a failing audio call, a fetch that fails, an unmatched word, or the
fetched instruction in the state of R92. -/
theorem step_cases (s : State) :
    (∃ r, s.mode = .awaitingKey r ∧ step s = .next (waitForKey r s.begun)) ∨
    (∃ e, s.mode = .running ∧ s.nextInputs.audioError = some e ∧
      step s = .next { s.begun with tone := some (toneOf s.ST), result := .err (.collaboratorError e) }) ∨
    (ReachesFetch s ∧ 4096 ≤ s.PC.toNat ∧
      step s = .next { s.timed with result := .err (.addressOutOfRange s.PC.toNat) }) ∨
    (ReachesFetch s ∧ s.PC.toNat = 4095 ∧ step s = .next { s.timed with result := .err (.addressOutOfRange 4096) }) ∨
    (ReachesFetch s ∧ s.PC.toNat + 1 < 4096 ∧ decode s.wordAtPC = .error (.unmatched s.wordAtPC) ∧
      step s = .next { s.fetched with result := .err (.unhandledInstruction s.wordAtPC) }) ∨
    (∃ i, Fetches s i ∧ step s = exec i s.fetched) := by
  unfold step stage
  rw [startCycle_eq]
  cases hm : s.mode with
  | awaitingKey r =>
    refine .inl ⟨r, rfl, ?_⟩
    rw [show s.begun.mode = .awaitingKey r from hm]
  | running =>
    rw [show s.begun.mode = .running from hm]
    unfold runningStage
    rw [show s.begun.inputs.audioError = s.nextInputs.audioError from rfl]
    cases ha : s.nextInputs.audioError with
    | some e =>
      refine .inr (.inl ⟨e, rfl, rfl, ?_⟩)
      have h := signalTone_begun s
      change Host.Outcome.next (s.begun.signalTone.raised _) = _
      rw [h]
      rfl
    | none =>
      have hrf : ReachesFetch s := ⟨hm, ha⟩
      rw [timed_eq s]
      rcases fetchAndDecode_eq s.timed with ⟨h, e⟩ | ⟨h, e⟩ | ⟨h, hd, e⟩ | ⟨h, i, hd, e⟩
      · exact .inr (.inr (.inl ⟨hrf, h, by rw [e]; rfl⟩))
      · exact .inr (.inr (.inr (.inl ⟨hrf, h, by rw [e]; rfl⟩)))
      · exact .inr (.inr (.inr (.inr (.inl ⟨hrf, h, hd, by rw [e]; rfl⟩))))
      · exact .inr (.inr (.inr (.inr (.inr ⟨i, ⟨hrf, h, hd⟩, by rw [e]; rfl⟩))))

end Sys2Proof.Machine
end

