-- ==== Sys2Proof/Laws/PerInstr.lean ====
section
/-! SUPPORT. One lemma per constructor: the encoded word of an instruction agrees with its own row of the opcode table, whatever its
operands are. -/

namespace Sys2Proof

theorem mask_pnnn (p : BitVec 4) (nnn : Lit12) : (p ++ nnn : Word) &&& 0xF000 = p ++ 0#12 := by
  rw [show (0xF000 : Word) = BitVec.allOnes 4 ++ 0#12 from rfl]
  refine Eq.trans (BitVec.and_append (x₁ := p) (y₁ := nnn)) ?_
  simp only [BitVec.and_allOnes, BitVec.and_zero]

theorem mask_pxkk (p x : BitVec 4) (kk : Byte) : (p ++ x ++ kk : Word) &&& 0xF000 = p ++ 0#4 ++ 0#8 := by
  rw [show (0xF000 : Word) = BitVec.allOnes 4 ++ 0#4 ++ 0#8 from rfl]
  refine Eq.trans (BitVec.and_append (x₁ := p ++ x) (y₁ := kk)) ?_
  rw [BitVec.and_append]
  simp only [BitVec.and_allOnes, BitVec.and_zero]

theorem mask_px_kk (p x : BitVec 4) (kk : Byte) : (p ++ x ++ kk : Word) &&& 0xF0FF = p ++ 0#4 ++ kk := by
  rw [show (0xF0FF : Word) = BitVec.allOnes 4 ++ 0#4 ++ BitVec.allOnes 8 from rfl]
  refine Eq.trans (BitVec.and_append (x₁ := p ++ x) (y₁ := kk)) ?_
  rw [BitVec.and_append]
  simp only [BitVec.and_allOnes, BitVec.and_zero]

theorem mask_pxy_n (p x y n : BitVec 4) : (p ++ x ++ y ++ n : Word) &&& 0xF00F = p ++ 0#4 ++ 0#4 ++ n := by
  rw [show (0xF00F : Word) = BitVec.allOnes 4 ++ 0#4 ++ 0#4 ++ BitVec.allOnes 4 from rfl]
  refine Eq.trans (BitVec.and_append (x₁ := p ++ x ++ y) (y₁ := n)) ?_
  rw [BitVec.and_append, BitVec.and_append]
  simp only [BitVec.and_allOnes, BitVec.and_zero]

theorem mask_pxyn (p x y n : BitVec 4) : (p ++ x ++ y ++ n : Word) &&& 0xF000 = p ++ 0#4 ++ 0#4 ++ 0#4 := by
  rw [show (0xF000 : Word) = BitVec.allOnes 4 ++ 0#4 ++ 0#4 ++ 0#4 from rfl]
  refine Eq.trans (BitVec.and_append (x₁ := p ++ x ++ y) (y₁ := n)) ?_
  rw [BitVec.and_append, BitVec.and_append]
  simp only [BitVec.and_allOnes, BitVec.and_zero]

end Sys2Proof

namespace Sys2Proof.Laws.EncodesInRow

open Sys2Proof

/-- The encoded word agrees with the instruction's row (match and mask of the opcode table). -/
def Statement (i : Instr) : Prop := i.row.Accepts (encode i)

theorem cls : Statement .cls := by unfold Statement; decide
theorem ret : Statement .ret := by unfold Statement; decide
theorem jp (nnn : Lit12) : Statement (.jp nnn) := mask_pnnn 0x1#4 nnn
theorem call (nnn : Lit12) : Statement (.call nnn) := mask_pnnn 0x2#4 nnn
theorem seImm (x : RegIdx) (kk : Byte) : Statement (.seImm x kk) := mask_pxkk 0x3#4 x kk
theorem sneImm (x : RegIdx) (kk : Byte) : Statement (.sneImm x kk) := mask_pxkk 0x4#4 x kk
theorem seReg (x y : RegIdx) : Statement (.seReg x y) := mask_pxy_n 0x5#4 x y 0x0#4
theorem ldImm (x : RegIdx) (kk : Byte) : Statement (.ldImm x kk) := mask_pxkk 0x6#4 x kk
theorem addImm (x : RegIdx) (kk : Byte) : Statement (.addImm x kk) := mask_pxkk 0x7#4 x kk
theorem ldReg (x y : RegIdx) : Statement (.ldReg x y) := mask_pxy_n 0x8#4 x y 0x0#4
theorem orReg (x y : RegIdx) : Statement (.orReg x y) := mask_pxy_n 0x8#4 x y 0x1#4
theorem andReg (x y : RegIdx) : Statement (.andReg x y) := mask_pxy_n 0x8#4 x y 0x2#4
theorem xorReg (x y : RegIdx) : Statement (.xorReg x y) := mask_pxy_n 0x8#4 x y 0x3#4
theorem addReg (x y : RegIdx) : Statement (.addReg x y) := mask_pxy_n 0x8#4 x y 0x4#4
theorem subReg (x y : RegIdx) : Statement (.subReg x y) := mask_pxy_n 0x8#4 x y 0x5#4
theorem shr (x y : RegIdx) : Statement (.shr x y) := mask_pxy_n 0x8#4 x y 0x6#4
theorem subnReg (x y : RegIdx) : Statement (.subnReg x y) := mask_pxy_n 0x8#4 x y 0x7#4
theorem shl (x y : RegIdx) : Statement (.shl x y) := mask_pxy_n 0x8#4 x y 0xE#4
theorem sneReg (x y : RegIdx) : Statement (.sneReg x y) := mask_pxy_n 0x9#4 x y 0x0#4
theorem ldI (nnn : Lit12) : Statement (.ldI nnn) := mask_pnnn 0xA#4 nnn
theorem jpV0 (nnn : Lit12) : Statement (.jpV0 nnn) := mask_pnnn 0xB#4 nnn
theorem rnd (x : RegIdx) (kk : Byte) : Statement (.rnd x kk) := mask_pxkk 0xC#4 x kk
theorem drw (x y : RegIdx) (n : RowCount) : Statement (.drw x y n) := mask_pxyn 0xD#4 x y n
theorem skp (x : RegIdx) : Statement (.skp x) := mask_px_kk 0xE#4 x 0x9E#8
theorem sknp (x : RegIdx) : Statement (.sknp x) := mask_px_kk 0xE#4 x 0xA1#8
theorem ldVxDt (x : RegIdx) : Statement (.ldVxDt x) := mask_px_kk 0xF#4 x 0x07#8
theorem ldVxK (x : RegIdx) : Statement (.ldVxK x) := mask_px_kk 0xF#4 x 0x0A#8
theorem ldDtVx (x : RegIdx) : Statement (.ldDtVx x) := mask_px_kk 0xF#4 x 0x15#8
theorem ldStVx (x : RegIdx) : Statement (.ldStVx x) := mask_px_kk 0xF#4 x 0x18#8
theorem addIVx (x : RegIdx) : Statement (.addIVx x) := mask_px_kk 0xF#4 x 0x1E#8
theorem ldFVx (x : RegIdx) : Statement (.ldFVx x) := mask_px_kk 0xF#4 x 0x29#8
theorem ldBVx (x : RegIdx) : Statement (.ldBVx x) := mask_px_kk 0xF#4 x 0x33#8
theorem ldMemVx (x : RegIdx) : Statement (.ldMemVx x) := mask_px_kk 0xF#4 x 0x55#8
theorem ldVxMem (x : RegIdx) : Statement (.ldVxMem x) := mask_px_kk 0xF#4 x 0x65#8

end Sys2Proof.Laws.EncodesInRow
end

