-- ==== Sys2Proof/Tests/Slice0.lean ====
section
/-! SUPPORT. The author's tests. Expected results are the spec's vectors (95_test_vectors.md, numbers E, D, Y, C, A, M, G, K, X) or words written out
from the encodings of 30_encoding.md. Each test is one step on a small state. The witnesses show that the hypotheses of the
statements can be met, clause by clause, at the edges of their ranges. -/

namespace Sys2Proof.Tests

open Sys2Proof Sys2Proof.Machine

/-! ## Helpers -/

/-- The vectors' state: after construction, with `FONT_BASE` 0, the default `FONT_DATA` and three listed cycles without a key. -/
def start : State := { State.reset with font := ⟨0, Config.defaultFontData⟩, upcoming := [Inputs.idle, Inputs.idle, Inputs.idle] }

/-- The same with the next cycle's inputs given. -/
def startWith (i : Inputs) : State := { start with upcoming := [i, Inputs.idle] }

/-- Inputs with these keys down. -/
def keys (ks : List Key) : Inputs := { Inputs.idle with keysDown := ks }

/-- The state with the word stored at its `PC`. -/
def placed (w : Word) (s : State) : State := s.withFetchWord 16 w.toNat

/-- The next step answers a state, and that state passes the check. -/
def gives (s : State) (check : State → Bool) : Bool :=
  match step s with
  | .next t => check t
  | _ => false

/-- The next step runs the word at `PC`, ends `Ok`, and its state passes the check. -/
def runs (w : Word) (s : State) (check : State → Bool) : Bool := gives (placed w s) fun t => t.result == .ok && check t

/-- The next step runs the word at `PC`, ends with the error, and its state passes the check. -/
def errs (w : Word) (s : State) (e : CoreError) (check : State → Bool) : Bool :=
  gives (placed w s) fun t => t.result == .err e && check t

/-- In this state the instruction answers exactly the other state. -/
def answers (i : Instr) (s t : State) : Bool :=
  match exec i s with
  | .next u => u == t
  | _ => false

/-- Exactly these pixels, (column, row), are set. -/
def shows (s : State) (ps : List (Nat × Nat)) : Bool :=
  (List.finRange 64).all fun X => (List.finRange 32).all fun Y => s.pixel X Y == ps.contains (X.val, Y.val)

/-- A stack of this many return addresses. -/
def stackOf (k : Nat) : List Word := List.replicate k 0x204

/-! ## Decoding: words written out from the formats of R70 and the table of R72 -/

theorem test_decode_control :
    decode 0b0000_0000_1110_1110 = .ok .ret ∧ decode 0b0001_101010111100 = .ok (.jp 0xABC) ∧
    decode 0b0010_000100100011 = .ok (.call 0x123) ∧ decode 0b0011_0011_01000010 = .ok (.seImm 3 0x42) ∧
    decode 0b0100_1111_10000001 = .ok (.sneImm 15 0x81) ∧ decode 0b0101_0001_0010_0000 = .ok (.seReg 1 2) ∧
    decode 0b1001_1110_0111_0000 = .ok (.sneReg 14 7) ∧ decode 0b1011_000100100011 = .ok (.jpV0 0x123) := by decide

theorem test_decode_loads :
    decode 0b0110_1010_01000010 = .ok (.ldImm 10 0x42) ∧ decode 0b0111_0001_00000011 = .ok (.addImm 1 3) ∧
    decode 0b1100_0011_00001111 = .ok (.rnd 3 0x0F) := by decide

theorem test_decode_alu :
    decode 0b1000_0001_0010_0000 = .ok (.ldReg 1 2) ∧ decode 0b1000_0001_0010_0001 = .ok (.orReg 1 2) ∧
    decode 0b1000_0001_0010_0010 = .ok (.andReg 1 2) ∧ decode 0b1000_0001_0010_0011 = .ok (.xorReg 1 2) ∧
    decode 0b1000_1010_1011_0100 = .ok (.addReg 10 11) ∧ decode 0b1000_0001_0010_0101 = .ok (.subReg 1 2) ∧
    decode 0b1000_0001_1111_0110 = .ok (.shr 1 15) ∧ decode 0b1000_0001_0010_0111 = .ok (.subnReg 1 2) ∧
    decode 0b1000_0001_0010_1110 = .ok (.shl 1 2) := by decide

theorem test_decode_index :
    decode 0b1010_000100100011 = .ok (.ldI 0x123) ∧ decode 0b1111_0001_00011110 = .ok (.addIVx 1) ∧
    decode 0b1111_0101_00101001 = .ok (.ldFVx 5) ∧ decode 0b1111_0010_00110011 = .ok (.ldBVx 2) ∧
    decode 0b1111_1111_01010101 = .ok (.ldMemVx 15) ∧ decode 0b1111_0010_01100101 = .ok (.ldVxMem 2) := by decide

theorem test_decode_display :
    decode 0b0000_0000_1110_0000 = .ok .cls ∧ decode 0b1101_0001_0010_1111 = .ok (.drw 1 2 15) := by decide

theorem test_decode_keys_timers :
    decode 0b1110_0100_10011110 = .ok (.skp 4) ∧ decode 0b1110_0100_10100001 = .ok (.sknp 4) ∧
    decode 0b1111_0010_00000111 = .ok (.ldVxDt 2) ∧ decode 0b1111_0011_00001010 = .ok (.ldVxK 3) ∧
    decode 0b1111_0001_00010101 = .ok (.ldDtVx 1) ∧ decode 0b1111_0001_00011000 = .ok (.ldStVx 1) := by decide

/-- D-1, D-2, D-3, D-5, D-6. -/
theorem test_decode_unmatched_prefix_0_5_9 :
    ([0x0000, 0x0123, 0x00E1, 0x5121, 0x912F] : List Word).all (fun w => decide (decode w = .error (.unmatched w))) = true := by decide

/-- D-7, D-9, D-10. -/
theorem test_decode_unmatched_prefix_8_E_F :
    ([0x8128, 0x8129, 0x812F, 0xE09F, 0xE0A0, 0xF000, 0xF0FF, 0xF056] : List Word).all
      (fun w => decide (decode w = .error (.unmatched w))) = true := by decide

theorem test_decode_bytes :
    decodeBytes [0xA2, 0xF0, 0x12] = .ok (.ldI 0x2F0, [0x12]) ∧ decodeBytes [0xA2] = .error .truncated ∧
    decodeTableWord 16 0xD125 = some (.drw 1 2 5) ∧ decodeTableWord 16 0x5121 = none := by decide

/-! ## Well-formedness: a word of every unmatched group is refused, the words beside it are accepted -/

theorem test_wellFormed_accepts :
    WordWellFormed 0x00E0 ∧ WordWellFormed 0x5120 ∧ WordWellFormed 0x8127 ∧ WordWellFormed 0x9120 ∧ WordWellFormed 0xE19E ∧
    WordWellFormed 0xF165 := by decide

theorem test_illFormed_prefix0 : ¬ WordWellFormed 0x00E1 := by decide
theorem test_illFormed_prefix5 : ¬ WordWellFormed 0x5121 := by decide
theorem test_illFormed_prefix8 : ¬ WordWellFormed 0x8129 := by decide
theorem test_illFormed_prefix9 : ¬ WordWellFormed 0x912F := by decide
theorem test_illFormed_prefixE : ¬ WordWellFormed 0xE09F := by decide
theorem test_illFormed_prefixF : ¬ WordWellFormed 0xF056 := by decide

/-! ## Control flow -/

/-- C-1. -/
theorem test_ret : runs 0x00EE { start with stack := [0x300] } (fun t => t.PC == 0x300 && t.stack == []) = true := by decide
/-- C-2. -/
theorem test_ret_empty : errs 0x00EE start .emptyStack (fun t => t.PC == 0x202 && t.stack == []) = true := by decide
/-- C-3. -/
theorem test_jp : runs 0x1ABC start (fun t => t.PC == 0xABC) = true := by decide
/-- C-4. -/
theorem test_call : runs 0x2400 start (fun t => t.PC == 0x400 && t.stack == [0x202]) = true := by decide
/-- C-5. -/
theorem test_call_full :
    errs 0x2400 { start with stack := stackOf 16 } .stackOverflow (fun t => t.PC == 0x202 && t.stack == stackOf 16) = true := by decide
/-- C-6. -/
theorem test_seImm_skips : runs 0x3342 (start.setReg 3 0x42) (fun t => t.PC == 0x204) = true := by decide
/-- C-7. -/
theorem test_seImm_stays : runs 0x3343 (start.setReg 3 0x42) (fun t => t.PC == 0x202) = true := by decide
/-- C-8. -/
theorem test_sneImm_stays : runs 0x4342 (start.setReg 3 0x42) (fun t => t.PC == 0x202) = true := by decide
/-- C-9. -/
theorem test_sneImm_skips : runs 0x4343 (start.setReg 3 0x42) (fun t => t.PC == 0x204) = true := by decide
/-- C-10. -/
theorem test_seReg_skips : runs 0x5120 ((start.setReg 1 7).setReg 2 7) (fun t => t.PC == 0x204) = true := by decide
/-- C-12. -/
theorem test_sneReg_skips : runs 0x9120 ((start.setReg 1 7).setReg 2 8) (fun t => t.PC == 0x204) = true := by decide
/-- C-13. -/
theorem test_sneReg_stays : runs 0x9120 ((start.setReg 1 7).setReg 2 7) (fun t => t.PC == 0x202) = true := by decide
/-- C-14. -/
theorem test_jpV0 : runs 0xB300 (start.setReg 0 2) (fun t => t.PC == 0x302) = true := by decide
/-- C-15. -/
theorem test_jpV0_not_masked : runs 0xBFFF (start.setReg 0 0xFF) (fun t => t.PC == 0x10FE) = true := by decide

/-! ## Registers and arithmetic -/

/-- A-1. -/
theorem test_ldImm : runs 0x6A42 start (fun t => t.reg 10 == 0x42) = true := by decide
/-- A-2. -/
theorem test_addImm_wraps :
    runs 0x7001 ((start.setReg 0 0xFF).setReg 15 0x55) (fun t => t.reg 0 == 0 && t.reg 15 == 0x55) = true := by decide
/-- A-3. -/
theorem test_addImm_vf : runs 0x7F01 (start.setReg 15 0x10) (fun t => t.reg 15 == 0x11) = true := by decide
/-- A-4. -/
theorem test_ldReg : runs 0x8120 ((start.setReg 1 0xCC).setReg 2 0xAA) (fun t => t.reg 1 == 0xAA && t.reg 2 == 0xAA) = true := by decide
/-- A-5. -/
theorem test_orReg : runs 0x8121 ((start.setReg 1 0xCC).setReg 2 0xAA) (fun t => t.reg 1 == 0xEE && t.reg 15 == 0) = true := by decide
/-- A-6. -/
theorem test_andReg : runs 0x8122 ((start.setReg 1 0xCC).setReg 2 0xAA) (fun t => t.reg 1 == 0x88 && t.reg 15 == 0) = true := by decide
/-- A-7. -/
theorem test_xorReg : runs 0x8123 ((start.setReg 1 0xCC).setReg 2 0xAA) (fun t => t.reg 1 == 0x66 && t.reg 15 == 0) = true := by decide
/-- E3. -/
theorem test_addReg : runs 0x8124 ((start.setReg 1 0xFF).setReg 2 2) (fun t => t.reg 1 == 1 && t.reg 15 == 1) = true := by decide
/-- A-10. -/
theorem test_addReg_vf : runs 0x8F14 ((start.setReg 15 0xFF).setReg 1 1) (fun t => t.reg 15 == 1) = true := by decide
/-- E6. -/
theorem test_subReg : runs 0x8125 ((start.setReg 1 3).setReg 2 5) (fun t => t.reg 1 == 0xFE && t.reg 15 == 0) = true := by decide
/-- A-14. -/
theorem test_subReg_vf : runs 0x8F15 ((start.setReg 15 5).setReg 1 3) (fun t => t.reg 15 == 2) = true := by decide
/-- A-19. -/
theorem test_shr_ignores_y : runs 0x8126 ((start.setReg 1 5).setReg 2 0x33) (fun t => t.reg 1 == 2 && t.reg 15 == 1) = true := by decide
/-- A-18. -/
theorem test_shr_vf : runs 0x8F06 (start.setReg 15 6) (fun t => t.reg 15 == 3) = true := by decide
/-- A-20. -/
theorem test_subnReg : runs 0x8127 ((start.setReg 1 3).setReg 2 5) (fun t => t.reg 1 == 2 && t.reg 15 == 1) = true := by decide
/-- A-22. -/
theorem test_subnReg_equal : runs 0x8127 ((start.setReg 1 5).setReg 2 5) (fun t => t.reg 1 == 0 && t.reg 15 == 0) = true := by decide
/-- A-24. -/
theorem test_shl : runs 0x810E (start.setReg 1 0x81) (fun t => t.reg 1 == 2 && t.reg 15 == 1) = true := by decide
/-- A-26. -/
theorem test_shl_bit5 : runs 0x810E (start.setReg 1 0x20) (fun t => t.reg 1 == 0x40 && t.reg 15 == 0) = true := by decide
/-- A-29. -/
theorem test_rnd : runs 0xC10F (startWith { Inputs.idle with rnd := 0xAB }) (fun t => t.reg 1 == 0x0B) = true := by decide

/-! ## Index register and memory -/

/-- M-1. -/
theorem test_ldI : runs 0xA123 start (fun t => t.I == 0x123) = true := by decide
/-- M-2. -/
theorem test_addIVx_wraps :
    runs 0xF11E (({ start with I := 0xFFFF }.setReg 1 1).setReg 15 0x55) (fun t => t.I == 0 && t.reg 15 == 0x55) = true := by decide
/-- M-3. -/
theorem test_addIVx_past_memory : runs 0xF11E ({ start with I := 0x0FFF }.setReg 1 1) (fun t => t.I == 0x1000) = true := by decide
/-- M-4. -/
theorem test_ldFVx : runs 0xF129 (start.setReg 1 0x0A) (fun t => t.I == 0x32) = true := by decide
/-- M-5. -/
theorem test_ldFVx_above : errs 0xF129 ({ start with I := 0x300 }.setReg 1 16) (.invalidGlyph 16) (fun t => t.I == 0x300) = true := by decide
/-- M-6. -/
theorem test_ldBVx : runs 0xF033 ({ start with I := 0x300 }.setReg 0 254)
    (fun t => t.byteAt 0x300 == 2 && t.byteAt 0x301 == 5 && t.byteAt 0x302 == 4 && t.I == 0x300) = true := by decide
/-- M-10. -/
theorem test_ldBVx_past_end : errs 0xF033 ({ start with I := 0xFFE }.setReg 0 123) (.addressOutOfRange 0x1000)
    (fun t => t.byteAt 0xFFE == 1 && t.byteAt 0xFFF == 2) = true := by decide
/-- M-16. -/
theorem test_ldMemVx : runs 0xF255 ((({ start with I := 0x310 }.setReg 0 2).setReg 1 9).setReg 2 2)
    (fun t => t.byteAt 0x310 == 2 && t.byteAt 0x311 == 9 && t.byteAt 0x312 == 2 && t.byteAt 0x313 == 0 && t.I == 0x310) = true := by decide
/-- M-13: the first address faults and nothing is written. -/
theorem test_ldMemVx_protected : errs 0xF155 (({ start with I := 0x1FF }.setReg 0 1).setReg 1 2) (.protectedWrite 0x1FF)
    (fun t => t.mem == (placed 0xF155 start).mem) = true := by decide
/-- R40, R45: another `FONT_DATA` at another `FONT_BASE`: the byte before the table and its first two bytes. -/
theorem test_ldVxMem_other_font : runs 0xF265 { start with font := ⟨0x50, Config.defaultFontData.set 0 0x5A⟩, I := 0x4F }
    (fun t => t.reg 0 == 0 && t.reg 1 == 0x5A && t.reg 2 == 0x90 && t.reg 3 == 0) = true := by decide
/-- M-15. -/
theorem test_ldVxMem_past_end : errs 0xF165 ({ start with I := 0xFFF }.setByte 0xFFF 0x77) (.addressOutOfRange 0x1000)
    (fun t => t.reg 0 == 0x77 && t.reg 1 == 0) = true := by decide

/-! ## Display -/

/-- G-1. -/
theorem test_cls :
    runs 0x00E0 (((start.xorPixel 1 1 true).xorPixel 63 31 true).setReg 15 7) (fun t => shows t [] && t.reg 15 == 7) = true := by decide
/-- G-9, P3: glyph A of the default `FONT_DATA` across the right and the bottom edge. -/
theorem test_drw_glyph : runs 0xD125 (({ start with I := 0x32 }.setReg 1 62).setReg 2 30)
    (fun t => shows t [(62, 30), (63, 30), (0, 30), (1, 30), (62, 31), (1, 31), (62, 0), (63, 0), (0, 0), (1, 0), (62, 1), (1, 1),
      (62, 2), (1, 2)] && t.reg 15 == 0) = true := by decide +kernel
/-- G-6. -/
theorem test_drw_collides :
    runs 0xD122 ((({ start with I := 0x300 }.setByte 0x300 0x80).setByte 0x301 0x80).xorPixel 0 0 true)
      (fun t => shows t [(0, 1)] && t.reg 15 == 1) = true := by decide

/-! ## Keys and timers -/

/-- K-1. -/
theorem test_skp_down : runs 0xE19E ((startWith (keys [7])).setReg 1 7) (fun t => t.PC == 0x204) = true := by decide
/-- K-5. -/
theorem test_skp_above : errs 0xE19E ((startWith (keys [0])).setReg 1 16) (.invalidKey 16) (fun t => t.PC == 0x202) = true := by decide
/-- K-3. -/
theorem test_sknp_down : runs 0xE1A1 ((startWith (keys [7])).setReg 1 7) (fun t => t.PC == 0x202) = true := by decide
/-- K-4. -/
theorem test_sknp_up : runs 0xE1A1 ((startWith (keys [3])).setReg 1 7) (fun t => t.PC == 0x204) = true := by decide
/-- Y-5. -/
theorem test_ldVxDt : runs 0xF107 { start with DT := 5 } (fun t => t.reg 1 == 4 && t.DT == 4) = true := by decide
/-- Y-6. -/
theorem test_ldDtVx : runs 0xF115 ({ start with DT := 9 }.setReg 1 3) (fun t => t.DT == 3) = true := by decide
/-- Y-7. -/
theorem test_ldStVx : runs 0xF118 ({ start with ST := 1 }.setReg 1 2) (fun t => t.ST == 2 && t.tone == some .beep) = true := by decide
/-- K-8. -/
theorem test_ldVxK : runs 0xF30A (startWith (keys [5])) (fun t => t.mode == .awaitingKey 3 && t.PC == 0x202 && t.reg 3 == 0) = true := by decide

/-! ## The cycle -/

/-- Y-1. -/
theorem test_odd_pc : runs 0x6142 { start with PC := 0x201 } (fun t => t.reg 1 == 0x42 && t.PC == 0x203) = true := by decide
/-- Y-2. -/
theorem test_last_word : runs 0x1FFE { start with PC := 0xFFE } (fun t => t.PC == 0xFFE) = true := by decide
/-- Y-3. -/
theorem test_fetch_half : gives { start with PC := 0xFFF, DT := 2 }
    (fun t => t.result == .err (.addressOutOfRange 0x1000) && t.PC == 0xFFF && t.DT == 1 && t.tone == some .stopBeep) = true := by decide
/-- Y-4. -/
theorem test_fetch_outside :
    gives { start with PC := 0x10FE } (fun t => t.result == .err (.addressOutOfRange 0x10FE) && t.PC == 0x10FE) = true := by decide
/-- E12. -/
theorem test_unmatched : errs 0x8129 start (.unhandledInstruction 0x8129) (fun t => t.PC == 0x202 && t.V == start.V) = true := by decide
/-- Y-9. -/
theorem test_wait_no_key : gives { start with mode := .awaitingKey 3, DT := 4, ST := 4 } (fun t => t.result == .ok &&
    t.mode == .awaitingKey 3 && t.PC == 0x200 && t.DT == 4 && t.ST == 4 && t.tone == none) = true := by decide
/-- Y-10, with the lowest code first and with the other key first. -/
theorem test_wait_key :
    gives { startWith (keys [3, 9]) with mode := .awaitingKey 3 } (fun t => t.mode == .running && t.reg 3 == 3 && t.PC == 0x200) = true ∧
    gives { startWith (keys [9, 3]) with mode := .awaitingKey 3 } (fun t => t.mode == .running && t.reg 3 == 9 && t.PC == 0x200) = true := by
  decide
/-- X-1. -/
theorem test_audio_failure : gives { startWith { Inputs.idle with audioError := some 5 } with ST := 3, DT := 2 }
    (fun t => t.result == .err (.collaboratorError 5) && t.ST == 3 && t.DT == 2 && t.PC == 0x200) = true := by decide
/-- X-2, X-3. -/
theorem test_loadRom_size :
    loadRom (List.replicate 3585 0) start = .error (.romTooLarge 3585) ∧ ∃ t, loadRom (List.replicate 3584 0) start = .ok t := by
  unfold loadRom
  simp only [List.length_replicate]
  exact ⟨rfl, _, rfl⟩
theorem test_loadRom : (match loadRom [0x12, 0x34, 0x56] start with
    | .ok t => t.byteAt 0x200 == 0x12 && t.byteAt 0x202 == 0x56 && t.byteAt 0x203 == 0 && t.byteAt 0 == 0xF0 && t.PC == 0x200
    | .error _ => false) = true := by decide
/-- E2. -/
theorem test_register_port :
    register 16 start = .error (.invalidRegister 16) ∧ register 15 (start.setReg 15 9) = .ok 9 := by decide

/-! ## Witnesses: the hypotheses of each statement can be met -/

theorem witness_ResetLeavesConstructionValues : ∃ t, loadRom [0x12, 0x00] State.reset = .ok t := ⟨_, rfl⟩

theorem witness_LoadRomCopiesImageOrFails :
    4096 < 0x200 + (List.replicate 3585 (0 : Byte)).length ∧ 0x200 + (List.replicate 3584 (0 : Byte)).length ≤ 4096 := by
  simp only [List.length_replicate]; decide

theorem witness_EmptyMachineRaisesUnhandledZero : ReachesFetch { State.construct start.font with upcoming := [Inputs.idle] } := by
  unfold ReachesFetch; decide

theorem witness_RegisterPortChecksIndex : 15 < 16 ∧ (15 : RegIdx).toNat = 15 := by decide

/-- The clauses meet at 0x1FF, 0x200, 0xFFF and 0x1000; what each address gives. -/
theorem witness_ByteAccessChecksAndStores :
    memRead 0x1FF start = .ok 0 ∧ memWrite 0x1FF 1 start = .error (.protectedWrite 0x1FF) ∧
    (∃ t, memWrite 0x200 1 start = .ok t) ∧ (∃ t, memWrite 0xFFF 1 start = .ok t) ∧
    memRead 0x1000 start = .error (.addressOutOfRange 0x1000) ∧ memWrite 0x1000 1 start = .error (.addressOutOfRange 0x1000) :=
  ⟨by decide, by decide, ⟨_, rfl⟩, ⟨_, rfl⟩, by decide, by decide⟩

theorem witness_WordReadIsBigEndian :
    memReadWord 0xFFE (start.setByte 0xFFE 0x12) = .ok 0x1200 ∧ memReadWord 0xFFF start = .error (.addressOutOfRange 0x1000) ∧
    memReadWord 0x1000 start = .error (.addressOutOfRange 0x1000) := by decide

theorem witness_EncodeDecodeGivesWord : decode 0x81F6 = .ok (.shr 1 15) := by decide

theorem witness_Encodes : (0x8AB4 : Word) &&& 0xF00F = 0x8004 ∧ (0xE49E : Word) &&& 0xF0FF = 0xE09E ∧ (0xD125 : Word) &&& 0xF000 = 0xD000 ∧
    (0x00EE : Word) &&& 0xFFFF = 0x00EE := by decide

theorem witness_StepRunsTheDecodedInstruction : Fetches (placed 0x6142 start) (.ldImm 1 0x42) := by
  unfold Fetches ReachesFetch; decide

theorem witness_Fetches_last_word : Fetches (placed 0x1FFE { start with PC := 0xFFE }) (.jp 0xFFE) := by
  unfold Fetches ReachesFetch; decide

theorem witness_PlacedWordIsExecutedNext : decode 0xD125 = .ok (.drw 1 2 5) := by decide

theorem witness_FetchErrorAndUnmatchedWord :
    (ReachesFetch { start with PC := 0x1000 } ∧ 4096 ≤ ({ start with PC := 0x1000 } : State).PC.toNat) ∧
    (ReachesFetch { start with PC := 0xFFF } ∧ ({ start with PC := 0xFFF } : State).PC.toNat = 4095) ∧
    (ReachesFetch { start with PC := 0xFFE } ∧ ({ start with PC := 0xFFE } : State).PC.toNat + 1 < 4096 ∧
      decode ({ start with PC := 0xFFE } : State).wordAtPC = .error (.unmatched ({ start with PC := 0xFFE } : State).wordAtPC)) := by
  unfold ReachesFetch; decide

theorem witness_AudioFailureEndsTheCycle :
    (startWith { Inputs.idle with audioError := some 5 }).mode = .running ∧
    (startWith { Inputs.idle with audioError := some 5 }).nextInputs.audioError = some 5 := by decide

theorem witness_WaitingCycleOnlyLooksForAKey :
    ({ start with mode := .awaitingKey 15 } : State).mode = .awaitingKey 15 ∧ start.nextInputs.keyboardError = none ∧
    start.nextInputs.keysDown = [] ∧ (startWith (keys [9, 3])).nextInputs.keysDown = 9 :: [3] ∧
    (startWith { Inputs.idle with keyboardError := some 1 }).nextInputs.keyboardError = some 1 := by decide

theorem witness_steps_answer : ∃ t, step (placed 0x00E0 start) = .next t := ⟨_, rfl⟩

theorem witness_waiting_steps_answer : ∃ t, step { start with mode := .awaitingKey 3 } = .next t := ⟨_, rfl⟩

/-- Both sides of the two timer cases: a cycle that fetches, one that waits, one whose audio call fails. -/
theorem witness_TimersCountRunningCycles :
    ReachesFetch start ∧ ¬ ReachesFetch { start with mode := .awaitingKey 3 } ∧
    ¬ ReachesFetch (startWith { Inputs.idle with audioError := some 5 }) := by unfold ReachesFetch; decide

theorem witness_CallPushesReturnAddress :
    (∃ t, exec (.call 0x400) { start with stack := stackOf 15 } = .next t ∧ t.stack.length = 16) ∧
    answers (.call 0x400) { start with stack := stackOf 16 } { start with stack := stackOf 16, result := .err .stackOverflow } = true :=
  ⟨⟨_, rfl, by decide⟩, by decide⟩

theorem witness_ReturnPopsIntoPC : ({ start with stack := [0x300, 0x204] } : State).stack = [0x300] ++ [0x204] ∧ start.stack = [] := by decide

theorem witness_ReturnUndoesCall :
    ∃ t v, exec (.call 0x400) { start with stack := stackOf 15 } = .next t ∧ exec .ret t = .next v ∧ v.PC = 0x200 ∧ v.stack = stackOf 15 :=
  ⟨_, _, rfl, rfl, by decide, by decide⟩

theorem witness_skips : start.reg 3 = 0x00 ∧ start.reg 3 ≠ 0x01 ∧ start.reg 1 = start.reg 2 ∧ (start.setReg 1 7).reg 1 ≠ (start.setReg 1 7).reg 2 ∧
    fieldP 0x5121 = 0x5 ∧ fieldN 0x5121 ≠ 0 ∧ fieldP 0x912F = 0x9 ∧ fieldN 0x912F ≠ 0 := by decide

/-- The carry at 255 and 256, the strict comparisons at equality and beside it, with a destination that is not `VF`. -/
theorem witness_flags :
    0xFF < ((start.setReg 1 0xFF).reg 1).toNat + ((start.setReg 2 1).reg 2).toNat ∧
    ((start.setReg 1 0xFE).reg 1).toNat + ((start.setReg 2 1).reg 2).toNat ≤ 0xFF ∧
    ((start.setReg 2 4).reg 2).toNat < ((start.setReg 1 5).reg 1).toNat ∧
    ((start.setReg 2 5).reg 2).toNat ≤ ((start.setReg 1 5).reg 1).toNat ∧ (1 : RegIdx) ≠ 15 := by decide

theorem witness_GlyphAddressOrInvalidGlyph :
    answers (.ldFVx 1) (start.setReg 1 15) { start.setReg 1 15 with I := 75 } = true ∧
    answers (.ldFVx 1) (start.setReg 1 16) { start.setReg 1 16 with result := .err (.invalidGlyph 16) } = true := by decide

/-- The clauses meet at 0x1FF, 0x200, 0xFFD, 0xFFE and 0x1000. -/
theorem witness_BcdStoresThreeDigits :
    (∀ a ∈ ([0x200, 0xFFD] : List Word), ∃ t, exec (.ldBVx 0) { start with I := a } = .next t ∧ t.result = .ok) ∧
    answers (.ldBVx 0) { start with I := 0x1FF } { start with I := 0x1FF, result := .err (.protectedWrite 0x1FF) } = true ∧
    answers (.ldBVx 0) { start with I := 0x1000 } { start with I := 0x1000, result := .err (.addressOutOfRange 0x1000) } = true ∧
    (∀ a ∈ ([0xFFE, 0xFFF] : List Word),
      ∃ t, exec (.ldBVx 0) { start with I := a } = .next t ∧ t.result = .err (.addressOutOfRange 4096)) := by
  refine ⟨?_, by decide, by decide, ?_⟩ <;> intro a ha <;> simp only [List.mem_cons, List.not_mem_nil, or_false] at ha <;>
    rcases ha with rfl | rfl <;> exact ⟨_, rfl, by decide⟩

theorem witness_BlockStoreWritesRegisters :
    (∃ t, exec (.ldMemVx 15) { start with I := 0xFF0 } = .next t ∧ t.result = .ok) ∧
    (∃ t, exec (.ldMemVx 0) { start with I := 0x200 } = .next t ∧ t.result = .ok) ∧
    answers (.ldMemVx 15) { start with I := 0x1FF } { start with I := 0x1FF, result := .err (.protectedWrite 0x1FF) } = true ∧
    answers (.ldMemVx 0) { start with I := 0x1000 } { start with I := 0x1000, result := .err (.addressOutOfRange 0x1000) } = true ∧
    (∃ t, exec (.ldMemVx 15) { start with I := 0xFF1 } = .next t ∧ t.result = .err (.addressOutOfRange 4096)) :=
  ⟨⟨_, rfl, by decide⟩, ⟨_, rfl, by decide⟩, by decide, by decide, ⟨_, rfl, by decide⟩⟩

theorem witness_BlockLoadReadsRegisters :
    (∃ t, exec (.ldVxMem 15) { start with I := 0xFF0 } = .next t ∧ t.result = .ok) ∧
    answers (.ldVxMem 0) { start with I := 0x1000 } { start with I := 0x1000, result := .err (.addressOutOfRange 0x1000) } = true ∧
    (∃ t, exec (.ldVxMem 15) { start with I := 0xFF1 } = .next t ∧ t.result = .err (.addressOutOfRange 4096)) :=
  ⟨⟨_, rfl, by decide⟩, by decide, ⟨_, rfl, by decide⟩⟩

theorem witness_StoredWordIsFetched :
    1 ≤ (1 : RegIdx).toNat ∧ 0x200 ≤ ({ start with I := 0xFFE } : State).I.toNat ∧
    ({ start with I := 0xFFE } : State).I.toNat + (1 : RegIdx).toNat < 4096 := by decide

/-- The clauses meet at `n = 0`, at a sprite that ends at the last byte, and at one that runs past it. -/
theorem witness_DrawXorsTheWrappedSprite :
    (∃ t, exec (.drw 1 2 0) { start with I := 0xFFFF } = .next t ∧ t.result = .ok) ∧
    (∃ t, exec (.drw 1 2 15) { start with I := 0xFF1 } = .next t ∧ t.result = .ok) ∧
    (∃ t, exec (.drw 1 2 15) { start with I := 0xFF2 } = .next t ∧ t.result = .err (.addressOutOfRange 0x1000)) ∧
    (∃ t, exec (.drw 1 2 1) { start with I := 0x1001 } = .next t ∧ t.result = .err (.addressOutOfRange 0x1001)) :=
  ⟨⟨_, rfl, by decide⟩, ⟨_, rfl, by decide⟩, ⟨_, rfl, by decide⟩, ⟨_, rfl, by decide⟩⟩

theorem witness_DrawingTwiceRestoresPixels :
    (1 : RegIdx) ≠ 15 ∧ (2 : RegIdx) ≠ 15 ∧ ({ start with I := 0xFF1 } : State).I.toNat + (15 : RowCount).toNat ≤ 4096 := by decide

/-- A key down, a key up, a value above 15, and a failing query. -/
theorem witness_KeySkips :
    answers (.skp 1) { start.setReg 1 15 with inputs := keys [15] } { start.setReg 1 15 with inputs := keys [15], PC := 0x202 } = true ∧
    answers (.sknp 1) { start.setReg 1 15 with inputs := keys [14] } { start.setReg 1 15 with inputs := keys [14], PC := 0x202 } = true ∧
    answers (.skp 1) (start.setReg 1 16) { start.setReg 1 16 with result := .err (.invalidKey 16) } = true ∧
    answers (.sknp 1) { start with inputs := { Inputs.idle with keyboardError := some 2 } }
      { start with inputs := { Inputs.idle with keyboardError := some 2 }, result := .err (.collaboratorError 2) } = true := by decide

theorem witness_TimerMovesInACycle :
    Fetches (placed 0xF107 start) (.ldVxDt 1) ∧ Fetches (placed 0xF115 start) (.ldDtVx 1) ∧ Fetches (placed 0xF118 start) (.ldStVx 1) := by
  unfold Fetches ReachesFetch; decide

/-- After each timer write the next cycle comes to a fetch and answers. -/
theorem witness_TimerMovesInACycle_next_cycle :
    runs 0xF115 start (fun t => t.mode == .running && t.nextInputs.audioError == none && gives t (fun _ => true)) = true ∧
    runs 0xF118 start (fun t => t.mode == .running && t.nextInputs.audioError == none && gives t (fun _ => true)) = true := by decide

/-- The wait is entered, and a key is down in the next cycle. -/
theorem witness_KeyWaitTakesTheNextCyclesKey :
    Fetches (placed 0xF30A { start with upcoming := [Inputs.idle, keys [7]] }) (.ldVxK 3) ∧
    gives (placed 0xF30A { start with upcoming := [Inputs.idle, keys [7]] })
      (fun t => t.nextInputs.keyboardError == none && t.nextInputs.keysDown == 7 :: []) = true := by
  unfold Fetches ReachesFetch; decide

theorem witness_FlagRegisterWriters : ∃ t, exec (.addReg 1 2) ((start.setReg 1 0xFF).setReg 2 1) = .next t ∧
    t.reg 15 ≠ ((start.setReg 1 0xFF).setReg 2 1).reg 15 := ⟨_, rfl, by decide⟩

/-- Each kind of state is changed by some instruction. -/
theorem witness_EachStateHasItsWriters :
    (∃ t, exec (.ldI 5) start = .next t ∧ t.I ≠ start.I) ∧ (∃ t, exec (.ldVxK 3) start = .next t ∧ t.mode ≠ start.mode) ∧
    (∃ t, exec .cls (start.xorPixel 0 0 true) = .next t ∧ t.FB ≠ (start.xorPixel 0 0 true).FB) ∧
    (∃ t, exec (.ldMemVx 0) ({ start with I := 0x300 }.setReg 0 1) = .next t ∧ t.mem ≠ []) ∧
    (∃ t, exec (.call 0x300) start = .next t ∧ t.stack ≠ start.stack) ∧
    (∃ t, exec (.ldDtVx 0) (start.setReg 0 1) = .next t ∧ t.DT ≠ start.DT) ∧
    (∃ t, exec (.ldStVx 0) (start.setReg 0 1) = .next t ∧ t.ST ≠ start.ST) :=
  ⟨⟨_, rfl, by decide⟩, ⟨_, rfl, by decide⟩, ⟨_, rfl, by decide⟩, ⟨_, rfl, by decide⟩, ⟨_, rfl, by decide⟩, ⟨_, rfl, by decide⟩,
    ⟨_, rfl, by decide⟩⟩

theorem witness_WaitIsEnteredAndLeftOnlySo :
    gives (placed 0xF30A start) (fun t => t.mode == .awaitingKey 3) = true ∧
    gives { startWith (keys [7]) with mode := .awaitingKey 3 } (fun t => t.mode == .running) = true := by decide

/-- An error before the fetch, one of the fetch, and one of an instruction. -/
theorem witness_errors :
    gives (startWith { Inputs.idle with audioError := some 5 }) (fun t => t.result == .err (.collaboratorError 5)) = true ∧
    gives { start with PC := 0xFFF } (fun t => t.result == .err (.addressOutOfRange 4096)) = true ∧
    gives (placed 0x00EE start) (fun t => t.result == .err .emptyStack && t.PC == 0x202) = true := by decide

theorem witness_ParkedStateRepeats :
    (placed 0x1FFE { start with PC := 0xFFE }).Parked ∧ 3 ≤ (placed 0x1FFE { start with PC := 0xFFE }).upcoming.length ∧
    ((placed 0x1FFE { start with PC := 0xFFE }).upcoming.take 3).all (fun i => i.audioError == none) = true := by
  unfold State.Parked; decide

/-- A state with a full stack, the highest `PC` of R25 and one listed byte. -/
def edge : State := { start with stack := stackOf 16, PC := 0x10FE, mem := [(0x300, 1)] }

/-- The invariant holds in a state that is not the reset state, and a step from it answers. -/
theorem witness_EveryCycleKeepsTheInvariant : edge.Inv ∧ ∃ t, step edge = .next t := by
  refine ⟨⟨by decide, fun a ha => ?_, by decide, fun a h => ?_, by decide⟩, _, rfl⟩
  · obtain rfl : a = 0x204 := List.eq_of_mem_replicate (show a ∈ List.replicate 16 0x204 from ha)
    decide
  have h1 : edge.byteAt a = if 0x300 = a then 1 else resetByte edge.font a := rfl
  rw [h1, if_neg (by omega)]

theorem witness_LoadRomKeepsTheInvariant : start.Inv ∧ ∃ t, loadRom [0x12, 0x00] start = .ok t := by
  refine ⟨⟨by decide, (fun _ ha => nomatch ha), by decide, fun a _ => ?_, by decide⟩, _, rfl⟩
  have h1 : start.byteAt a = resetByte start.font a := rfl
  exact h1

theorem witness_GlyphIsDrawnFromFontData : (start.setReg 3 15).Inv ∧ ((start.setReg 3 15).reg 3).toNat ≤ 15 := by
  refine ⟨⟨by decide, (fun _ ha => nomatch ha), by decide, fun a _ => ?_, by decide⟩, by decide⟩
  have h1 : (start.setReg 3 15).byteAt a = resetByte (start.setReg 3 15).font a := rfl
  exact h1

/-- A parked state whose audio call succeeds and one whose audio call fails; both steps answer. -/
theorem witness_EveryCycleKeepsParked :
    ((start.setByte 0x200 0x12).Parked ∧ ∃ t, step (start.setByte 0x200 0x12) = .next t) ∧
    (({ start with upcoming := [{ Inputs.idle with audioError := some 5 }] }.setByte 0x200 0x12).Parked ∧
      ∃ t, step ({ start with upcoming := [{ Inputs.idle with audioError := some 5 }] }.setByte 0x200 0x12) = .next t) := by
  unfold State.Parked
  exact ⟨⟨by decide, _, rfl⟩, by decide, _, rfl⟩

end Sys2Proof.Tests
end

section
/-! PROOFS. What an instruction and a cycle can change, in a few kinds each, so that a proof over all steps splits on these
and not on the 34 instructions. -/

namespace Sys2Proof.Machine

/-- One of the six skip instructions (R105 to R108, R146, R147). -/
def IsSkip (i : Instr) : Prop :=
  ∃ x y kk, i = .seImm x kk ∨ i = .sneImm x kk ∨ i = .seReg x y ∨ i = .sneReg x y ∨ i = .skp x ∨ i = .sknp x

/-! ## Block stores -/

/-- A block store keeps the canonical form of memory, wherever it ends. -/
theorem storeBytes_keeps_memForm {bytes : List Byte} {a : Nat} {s t : State} (h : storeBytes a bytes s = .next t)
    (hm : s.mem.wf s.font = true) : t.mem.wf t.font = true := by
  induction bytes generalizing a s with
  | nil => cases h; exact hm
  | cons b bs ih =>
    rw [storeBytes] at h
    rcases memWrite_eq a b s with ⟨-, e⟩ | ⟨-, e⟩ | ⟨-, ha, e⟩ <;> rw [e] at h
    · cases h; exact hm
    · cases h; exact hm
    · exact ih h (Memory.wf_poke s.font b ha hm)

/-! ## The kinds of change of an instruction -/

/-- The kinds of change an instruction makes. The kind `data` stands also for an instruction that only raises its error, and for a
skip whose condition does not hold. -/
inductive Change : Instr → State → State → Prop
  | data {i s t} (frame : t = { s with V := t.V, I := t.I, FB := t.FB, result := t.result }) : Change i s t
  | skip {i s t} (isSkip : IsSkip i) (frame : t = { s with PC := s.PC + 2, result := t.result }) : Change i s t
  | jump {nnn s t} (eq : t = (s.setPC (zextLit nnn)).setResult .ok) : Change (.jp nnn) s t
  | jumpV0 {nnn s t} (eq : t = (s.setPC (zextLit nnn + zextByte (s.reg 0))).setResult .ok) : Change (.jpV0 nnn) s t
  | call {nnn s t} (room : s.stack.length < 16)
      (eq : t = ((s.setStack (s.stack ++ [s.PC])).setPC (zextLit nnn)).setResult .ok) : Change (.call nnn) s t
  | ret {s t} (below : List Word) (top : Word) (stack : s.stack = below ++ [top])
      (eq : t = ((s.setStack below).setPC top).setResult .ok) : Change .ret s t
  | store {i s t} (frame : t = { s with mem := t.mem, result := t.result }) (low : ∀ a < 0x200, t.byteAt a = s.byteAt a)
      (form : s.mem.wf s.font = true → t.mem.wf t.font = true) : Change i s t
  | wait {x s t} (eq : t = (s.setMode (.awaitingKey x)).setResult .ok) : Change (.ldVxK x) s t
  | delay {x s t} (eq : t = (s.setDT (s.reg x)).setResult .ok) : Change (.ldDtVx x) s t
  | sound {x s t} (eq : t = (s.setST (s.reg x)).setResult .ok) : Change (.ldStVx x) s t

theorem change_of_skipIf {i : Instr} {s t : State} {c : Bool} (hi : IsSkip i) (ht : t = (s.skipIf c).setResult .ok) :
    Change i s t := by
  subst ht
  cases c with
  | false => exact .data rfl
  | true => exact .skip hi rfl

theorem change_of_keyEffect {i : Instr} {want : Bool} {x : RegIdx} {s t : State} (hi : IsSkip i)
    (h : KeyEffect want x s t) : Change i s t := by
  rcases h with ⟨-, rfl⟩ | ⟨-, e, -, rfl⟩ | ⟨-, -, ht⟩
  · exact .data rfl
  · exact .data rfl
  · exact change_of_skipIf hi ht

theorem change_of_storeEffect {i : Instr} {a : Nat} {bytes : List Byte} {s t : State}
    (h : storeBytes a bytes s = .next t) (he : StoreEffect bytes s t) : Change i s t := by
  obtain ⟨hf, -, hb⟩ := he
  refine .store hf (fun a ha => ?_) (storeBytes_keeps_memForm h)
  rw [hb, if_neg (by omega)]

/-- Every instruction makes a change of one of the kinds. -/
theorem change_of_exec {i : Instr} {s t : State} (h : exec i s = .next t) : Change i s t := by
  have he := effect_of_exec h
  cases i with
  | ret =>
    rcases he with ⟨-, rfl⟩ | ⟨below, top, hs, ht⟩
    · exact .data rfl
    · exact .ret below top hs ht
  | jp nnn => exact .jump he
  | jpV0 nnn => exact .jumpV0 he
  | call nnn =>
    rcases he with ⟨-, rfl⟩ | ⟨hl, ht⟩
    · exact .data rfl
    · exact .call hl ht
  | seImm x kk => exact change_of_skipIf ⟨x, 0, kk, by simp⟩ he
  | sneImm x kk => exact change_of_skipIf ⟨x, 0, kk, by simp⟩ he
  | seReg x y => exact change_of_skipIf ⟨x, y, 0, by simp⟩ he
  | sneReg x y => exact change_of_skipIf ⟨x, y, 0, by simp⟩ he
  | skp x => exact change_of_keyEffect ⟨x, 0, 0, by simp⟩ he
  | sknp x => exact change_of_keyEffect ⟨x, 0, 0, by simp⟩ he
  | ldVxK x => exact .wait he
  | ldDtVx x => exact .delay he
  | ldStVx x => exact .sound he
  | ldFVx x =>
    rcases he with ⟨-, rfl⟩ | ⟨-, rfl⟩
    · exact .data rfl
    · exact .data rfl
  | ldBVx x => exact change_of_storeEffect h he
  | ldMemVx x => exact change_of_storeEffect h he
  | drw x y n =>
    obtain ⟨hf, -⟩ := he
    exact .data (hf.trans (by rw [hf]))
  | ldVxMem x =>
    obtain ⟨hf, -⟩ := he
    exact .data (hf.trans (by rw [hf]))
  | _ => subst he; exact .data rfl

/-! ## The kinds of cycle -/

/-- The kinds of cycle from `s` to `t`: one that waits for a key, one whose audio call fails, one that passes the timers but comes to no
instruction, and one that executes an instruction. -/
inductive CycleKind (s t : State) : Prop
  | waiting (r : RegIdx) (mode : s.mode = .awaitingKey r)
      (frame : t = { s.begun with V := t.V, mode := t.mode, result := t.result })
      (left : t.mode = s.mode ∨ t.mode = .running ∧ s.nextInputs.keysDown ≠ [])
  | audioFailed (mode : s.mode = .running) (noFetch : ¬ ReachesFetch s)
      (frame : t = { s.begun with tone := t.tone, result := t.result })
  | noInstr (fetch : ReachesFetch s) (frame : t = { s.timed with PC := t.PC, result := t.result })
      (pc : t.PC = s.PC ∨ s.PC.toNat + 1 < 4096 ∧ t.PC = s.PC + 2)
  | executed (i : Instr) (fetch : Fetches s i) (change : Change i s.fetched t)

/-- Everything a waiting cycle can change (R88). -/
theorem cycleKind_of_waiting {s : State} {r : RegIdx} (hm : s.mode = .awaitingKey r) : CycleKind s (waitForKey r s.begun) := by
  rcases waitForKey_eq r s.begun with ⟨e, -, ht⟩ | ⟨-, -, ht⟩ | ⟨k, ks, -, hk, ht⟩ <;> rw [ht]
  · exact .waiting r hm rfl (.inl rfl)
  · exact .waiting r hm rfl (.inl rfl)
  · have hne : s.nextInputs.keysDown ≠ [] := fun h => by rw [show s.nextInputs.keysDown = k :: ks from hk] at h; cases h
    exact .waiting r hm rfl (.inr ⟨rfl, hne⟩)

/-- Every step is a cycle of one of the kinds. -/
theorem cycleKind_of_step {s t : State} (h : step s = .next t) : CycleKind s t := by
  rcases step_cases s with ⟨r, hm, e⟩ | ⟨c, hm, ha, e⟩ | ⟨hr, -, e⟩ | ⟨hr, -, e⟩ | ⟨hr, hpc, -, e⟩ | ⟨i, hi, e⟩ <;> rw [e] at h
  · cases h; exact cycleKind_of_waiting hm
  · cases h
    exact .audioFailed hm (fun hr => by rw [hr.2] at ha; cases ha) rfl
  · cases h; exact .noInstr hr rfl (.inl rfl)
  · cases h; exact .noInstr hr rfl (.inl rfl)
  · cases h; exact .noInstr hr rfl (.inr ⟨hpc, rfl⟩)
  · exact .executed i hi (change_of_exec h)

end Sys2Proof.Machine
end

section
/-! PROOFS. The invariant is kept by every cycle (R25, R42). It reads only the stack, `PC`, memory and the font parameters, so each kind
of change has to be looked at in these four only. -/

namespace Sys2Proof.Machine

/-! ## The reach of `PC` -/

theorem zextLit_toNat (nnn : Lit12) : (zextLit nnn).toNat = nnn.toNat := by
  have h : nnn.toNat < 4096 := nnn.isLt
  rw [zextLit, BitVec.toNat_setWidth]
  omega

/-- The sum of an indexed jump does not wrap (R109). -/
theorem jpV0_target_toNat (nnn : Lit12) (v : Byte) : (zextLit nnn + zextByte v).toNat = nnn.toNat + v.toNat := by
  have h : nnn.toNat < 4096 := nnn.isLt
  have hv : v.toNat < 256 := v.isLt
  rw [BitVec.toNat_add, zextLit_toNat, zextByte, BitVec.toNat_setWidth]
  omega

/-- An advance or a skip from an address far below 0xFFFF does not wrap. -/
theorem toNat_add_two {a : Word} (h : a.toNat ≤ 0x10FE) : (a + 2).toNat = a.toNat + 2 := by
  rw [BitVec.toNat_add]
  simp
  omega

theorem Fetches.pc_lt {s : State} {i : Instr} (h : Fetches s i) : s.PC.toNat + 1 < 4096 := h.2.1

/-! ## The invariant -/

namespace State.Inv

/-- The invariant of a state with the same memory and font parameters. -/
theorem of_same_memory {s t : State} (h : s.Inv) (hm : t.mem = s.mem) (hf : t.font = s.font) (hl : t.stack.length ≤ 16)
    (hs : ∀ a ∈ t.stack, a.toNat ≤ 0x10FE) (hpc : t.PC.toNat ≤ 0x10FE) : t.Inv where
  stackBound := hl
  stackEntries := hs
  pcBound := hpc
  lowRegion a ha := by rw [byteAt, hm, hf]; exact h.lowRegion a ha
  memForm := by rw [hm, hf]; exact h.memForm

/-- The invariant of a state that differs in `PC` only, as far as the invariant reads it. -/
theorem of_same_stack {s t : State} (h : s.Inv) (hm : t.mem = s.mem) (hf : t.font = s.font) (hs : t.stack = s.stack)
    (hpc : t.PC.toNat ≤ 0x10FE) : t.Inv :=
  h.of_same_memory hm hf (hs ▸ h.stackBound) (hs ▸ h.stackEntries) hpc

/-- Every change of an instruction keeps the invariant; `PC` is at most 0x1000 where an instruction executes, since its word was fetched. -/
theorem change {i : Instr} {s t : State} (h : s.Inv) (hpc : s.PC.toNat ≤ 0x1000) (hc : Change i s t) : t.Inv := by
  cases hc with
  | data frame => rw [frame]; exact h.of_same_stack rfl rfl rfl h.pcBound
  | skip _ frame =>
    rw [frame]
    refine h.of_same_stack rfl rfl rfl ?_
    have := toNat_add_two h.pcBound
    change (s.PC + 2).toNat ≤ _
    omega
  | @jump nnn _ _ eq =>
    subst eq
    have hn : nnn.toNat < 4096 := nnn.isLt
    exact h.of_same_stack rfl rfl rfl (by simp only [setResult_PC, setPC_PC, zextLit_toNat]; omega)
  | @jumpV0 nnn _ _ eq =>
    subst eq
    have hn : nnn.toNat < 4096 := nnn.isLt
    have hv : (s.reg 0).toNat < 256 := (s.reg 0).isLt
    exact h.of_same_stack rfl rfl rfl (by simp only [setResult_PC, setPC_PC, jpV0_target_toNat]; omega)
  | @call nnn _ _ room eq =>
    subst eq
    have hn : nnn.toNat < 4096 := nnn.isLt
    refine h.of_same_memory rfl rfl ?_ ?_ ?_
    · simp; omega
    · intro a ha
      rcases List.mem_append.mp ha with ha | ha
      · exact h.stackEntries a ha
      · rw [List.mem_singleton.mp ha]; exact h.pcBound
    · simp only [setResult_PC, setPC_PC, zextLit_toNat]; omega
  | ret below top stack eq =>
    subst eq
    have hb := h.stackBound
    have he := h.stackEntries
    rw [stack] at hb he
    refine h.of_same_memory rfl rfl ?_ ?_ ?_
    · rw [List.length_append] at hb; exact Nat.le_of_add_right_le hb
    · exact fun a ha => he a (List.mem_append_left _ ha)
    · exact he top (by simp)
  | store frame low form =>
    have hf : t.font = s.font := by rw [frame]
    have hs : t.stack = s.stack := by rw [frame]
    have hp : t.PC = s.PC := by rw [frame]
    exact ⟨hs ▸ h.stackBound, hs ▸ h.stackEntries, hp ▸ h.pcBound, fun a ha => by rw [low a ha, hf]; exact h.lowRegion a ha,
      form h.memForm⟩
  | wait eq | delay eq | sound eq => subst eq; exact h.of_same_stack rfl rfl rfl h.pcBound

end State.Inv

/-- Settles O55: a cycle that executes nothing moves `PC` by at most the advance of a fetched word, and the changes of the instructions keep the
invariant. -/
theorem everyCycleKeepsTheInvariant : Obligations.EveryCycleKeepsTheInvariant := by
  intro s t h hstep
  cases cycleKind_of_step hstep with
  | waiting _ _ frame => rw [frame]; exact h.of_same_stack rfl rfl rfl h.pcBound
  | audioFailed _ _ frame => rw [frame]; exact h.of_same_stack rfl rfl rfl h.pcBound
  | noInstr _ frame pc =>
    have hpc : t.PC.toNat ≤ 0x10FE := by
      rcases pc with pc | ⟨hlt, pc⟩
      · rw [pc]; exact h.pcBound
      · rw [pc, toNat_add_two h.pcBound]; omega
    rw [frame]
    exact h.of_same_stack rfl rfl rfl hpc
  | executed i fetch change =>
    have hpc : s.fetched.PC.toNat = s.PC.toNat + 2 := toNat_add_two h.pcBound
    have hlt := fetch.pc_lt
    have hinv : s.fetched.Inv := h.of_same_stack rfl rfl rfl (by omega)
    exact hinv.change (by omega) change

end Sys2Proof.Machine
end

section
/-! PROOFS. Over all cycles: what moves the timers, the mode and `PC`. -/

namespace Sys2Proof.Machine

/-! ## The writers, over all instructions -/

namespace Change

variable {i : Instr} {s t : State}

theorem dt_eq (h : Change i s t) : t.DT = s.DT ∨ ∃ x, i = .ldDtVx x ∧ t.DT = s.reg x := by
  cases h with
  | @delay x _ _ eq => exact .inr ⟨x, rfl, by rw [eq]; rfl⟩
  | data frame | skip _ frame | store frame => exact .inl (by rw [frame])
  | jump eq | jumpV0 eq | call _ eq | ret _ _ _ eq | wait eq | sound eq => exact .inl (by rw [eq]; rfl)

theorem st_eq (h : Change i s t) : t.ST = s.ST ∨ ∃ x, i = .ldStVx x ∧ t.ST = s.reg x := by
  cases h with
  | @sound x _ _ eq => exact .inr ⟨x, rfl, by rw [eq]; rfl⟩
  | data frame | skip _ frame | store frame => exact .inl (by rw [frame])
  | jump eq | jumpV0 eq | call _ eq | ret _ _ _ eq | wait eq | delay eq => exact .inl (by rw [eq]; rfl)

theorem mode_eq (h : Change i s t) : t.mode = s.mode ∨ ∃ x, i = .ldVxK x ∧ t.mode = .awaitingKey x := by
  cases h with
  | @wait x _ _ eq => exact .inr ⟨x, rfl, by rw [eq]; rfl⟩
  | data frame | skip _ frame | store frame => exact .inl (by rw [frame])
  | jump eq | jumpV0 eq | call _ eq | ret _ _ _ eq | delay eq | sound eq => exact .inl (by rw [eq]; rfl)

theorem pc_cases (h : Change i s t) :
    t.PC = s.PC ∨ (IsSkip i ∧ t.PC = s.PC + 2) ∨ (∃ nnn, (i = .jp nnn ∨ i = .call nnn) ∧ t.PC.toNat = nnn.toNat) ∨
    (∃ nnn, i = .jpV0 nnn ∧ t.PC.toNat = nnn.toNat + (s.reg 0).toNat) ∨ (i = .ret ∧ s.stack.getLast? = some t.PC) := by
  cases h with
  | data frame | store frame => exact .inl (by rw [frame])
  | wait eq | delay eq | sound eq => exact .inl (by rw [eq]; rfl)
  | skip hi eq => exact .inr (.inl ⟨hi, by rw [eq]⟩)
  | @jump nnn _ _ eq => exact .inr (.inr (.inl ⟨nnn, .inl rfl, by rw [eq]; exact zextLit_toNat nnn⟩))
  | @call nnn _ _ _ eq => exact .inr (.inr (.inl ⟨nnn, .inr rfl, by rw [eq]; exact zextLit_toNat nnn⟩))
  | @jumpV0 nnn _ _ eq => exact .inr (.inr (.inr (.inl ⟨nnn, rfl, by rw [eq]; exact jpV0_target_toNat nnn _⟩)))
  | ret below top hs eq => exact .inr (.inr (.inr (.inr ⟨rfl, by rw [hs, eq]; simp⟩)))

end Change

/-! ## The statements -/

theorem not_reachesFetch_of_waiting {s : State} {r : RegIdx} (h : s.mode = .awaitingKey r) : ¬ ReachesFetch s := by
  rintro ⟨hr, -⟩
  rw [h] at hr
  cases hr

/-- Settles O19: by the kind of the cycle; an executed instruction starts from the decremented timers and is their writer or leaves them. -/
theorem timersCountRunningCycles : Obligations.TimersCountRunningCycles := by
  intro s t hstep
  cases cycleKind_of_step hstep with
  | waiting r mode frame =>
    have hn := not_reachesFetch_of_waiting mode
    exact ⟨fun _ => by rw [frame]; exact ⟨rfl, rfl⟩, fun h => absurd h hn, fun h => absurd h hn⟩
  | audioFailed _ hn frame =>
    exact ⟨fun _ => by rw [frame]; exact ⟨rfl, rfl⟩, fun h => absurd h hn, fun h => absurd h hn⟩
  | noInstr fetch frame =>
    refine ⟨fun hn => absurd fetch hn, fun _ => .inl ?_, fun _ => .inl ?_⟩
    · rw [frame]; exact decremented_toNat s.DT
    · rw [frame]; exact decremented_toNat s.ST
  | executed i fetch change =>
    refine ⟨fun hn => absurd fetch.1 hn, fun _ => ?_, fun _ => ?_⟩
    · rcases change.dt_eq with hd | ⟨x, rfl, hd⟩
      · rw [hd]; exact .inl (decremented_toNat s.DT)
      · exact .inr ⟨x, fetch, hd⟩
    · rcases change.st_eq with hd | ⟨x, rfl, hd⟩
      · rw [hd]; exact .inl (decremented_toNat s.ST)
      · exact .inr ⟨x, fetch, hd⟩

/-- Settles O48: a cycle that executes nothing leaves `PC` or advances it; an instruction finds it advanced and is one of the writers. -/
theorem pcChangesOnlyByTheseInstructions : Obligations.PCChangesOnlyByTheseInstructions := by
  intro s t hstep
  cases cycleKind_of_step hstep with
  | waiting _ _ frame => exact .inl (by rw [frame]; rfl)
  | audioFailed _ _ frame => exact .inl (by rw [frame]; rfl)
  | noInstr _ _ pc =>
    rcases pc with pc | ⟨-, pc⟩
    · exact .inl pc
    · exact .inr (.inl pc)
  | executed i fetch change =>
    right
    rcases change.pc_cases with pc | ⟨hi, pc⟩ | ⟨nnn, hi, pc⟩ | ⟨nnn, rfl, pc⟩ | ⟨rfl, pc⟩
    · exact .inl pc
    · have h4 : s.PC + 2 + 2 = s.PC + 4 := by rw [BitVec.add_assoc]; rfl
      exact .inr (.inl ⟨pc.trans h4, i, fetch, hi⟩)
    · refine .inr (.inr (.inl ⟨nnn, ?_, pc⟩))
      rcases hi with rfl | rfl
      · exact .inl fetch
      · exact .inr fetch
    · exact .inr (.inr (.inr (.inl ⟨nnn, fetch, pc⟩)))
    · exact .inr (.inr (.inr (.inr ⟨fetch, pc⟩)))

/-- Settles O49: only `Fx0A` sets the waiting mode, and only a waiting cycle with a key down ends it. -/
theorem waitIsEnteredAndLeftOnlySo : Obligations.WaitIsEnteredAndLeftOnlySo := by
  intro s t hstep
  refine ⟨fun r hs ht => ?_, fun r hs hne => ?_⟩
  · have enters (h : t.mode = s.mode) : Fetches s (.ldVxK r) := by rw [h, hs] at ht; cases ht
    cases cycleKind_of_step hstep with
    | waiting _ mode => rw [hs] at mode; cases mode
    | audioFailed _ _ frame => exact enters (by rw [frame]; rfl)
    | noInstr _ frame => exact enters (by rw [frame]; rfl)
    | executed i fetch change =>
      rcases change.mode_eq with hk | ⟨x, rfl, hx⟩
      · exact enters hk
      · rw [hx] at ht
        cases ht
        exact fetch
  · have hn := not_reachesFetch_of_waiting hs
    cases cycleKind_of_step hstep with
    | waiting _ _ _ left => exact left.resolve_left hne
    | audioFailed mode => rw [hs] at mode; cases mode
    | noInstr fetch => exact absurd fetch hn
    | executed _ fetch => exact absurd fetch.1 hn

end Sys2Proof.Machine
end

section
/-! PROOFS. The register port, the call stack instructions, the flag register as a destination, loading a program, and the font. -/

namespace Sys2Proof.Machine

/-! ## The register port -/

/-- A register write changes the registers only, and of these its own. -/
theorem setReg_frame (s : State) (r : RegIdx) (b : Byte) : s.setReg r b = { s with V := (s.setReg r b).V } ∧ RegsKept [r] s (s.setReg r b) :=
  ⟨rfl, fun _ hq => State.reg_setReg_ne s b (List.ne_of_not_mem_cons hq)⟩

/-- Settles O4: the port's range check on both sides. -/
theorem registerPortChecksIndex : Obligations.RegisterPortChecksIndex := by
  intro idx b s
  refine ⟨fun h => ⟨if_pos h, if_pos h⟩, ?_⟩
  rintro r rfl
  have hr : ¬ 15 < r.toNat := by have := r.isLt; omega
  have hx : BitVec.ofNat 4 r.toNat = r := by simp
  obtain ⟨hf, hk⟩ := setReg_frame s r b
  refine ⟨?_, s.setReg r b, ?_, hf, State.reg_setReg_same s r b, hk⟩
  · rw [register, if_neg hr, hx]
  · rw [setRegister, if_neg hr, hx]

/-! ## The call stack -/

theorem decode_call {w : Word} (h : fieldP w = 0x2) : decode w = .ok (.call (fieldNnn w)) := by
  rw [decode, h]
  rfl

/-- Settles O21, by everything a push can do. -/
theorem callPushesReturnAddress : Obligations.CallPushesReturnAddress := by
  refine ⟨fun w hw => decode_call (fieldP_of_mask hw rfl), fun nnn s => ⟨fun hl => ?_, fun hl => ?_⟩⟩
  · obtain ⟨t, ht, ⟨hl', -⟩ | ⟨-, eq⟩⟩ := exec_effect (.call nnn) s
    · omega
    · subst eq
      exact ⟨_, ht, rfl, zextLit_toNat nnn⟩
  · obtain ⟨t, ht, ⟨-, eq⟩ | ⟨hl', -⟩⟩ := exec_effect (.call nnn) s
    · rw [ht, eq]; rfl
    · omega

/-- Settles O22, by everything a pop can do. -/
theorem returnPopsIntoPC : Obligations.ReturnPopsIntoPC := by
  refine ⟨fun w hw => ?_, fun s => ⟨fun below top hs => ?_, fun hs => ?_⟩⟩
  · rw [show (0xFFFF : Word) = BitVec.allOnes 16 from rfl, BitVec.and_allOnes] at hw
    subst hw
    rfl
  · obtain ⟨t, ht, ⟨hs', -⟩ | ⟨below', top', hs', eq⟩⟩ := exec_effect .ret s
    · rw [hs] at hs'; simp at hs'
    · obtain ⟨rfl, htop⟩ := List.append_inj' (hs.symm.trans hs') rfl
      cases htop
      rw [ht, eq]; rfl
  · obtain ⟨t, ht, ⟨-, eq⟩ | ⟨below, top, hs', -⟩⟩ := exec_effect .ret s
    · rw [ht, eq]; rfl
    · rw [hs] at hs'; simp at hs'

/-! ## `VF` as a destination -/

theorem flagByte_toNat (c : Bool) : (if c then 0x01 else 0x00 : Byte).toNat = c.toNat := by
  cases c <;> rfl

/-- The carry as a number (R120). -/
theorem addCarry_toNat (a b : Byte) : (addCarry a b).toNat = (a.toNat + b.toNat) / 256 := by
  have ha : a.toNat < 256 := a.isLt
  have hb : b.toNat < 256 := b.isLt
  by_cases h : 0xFF < a.toNat + b.toNat
  · rw [addCarry, decide_eq_true h, Bool.toNat_true]; omega
  · rw [addCarry, decide_eq_false h, Bool.toNat_false]; omega

theorem byte_sub_toNat (a b : Byte) : (a - b).toNat = (a.toNat + 256 - b.toNat) % 256 := by
  have hb : b.toNat < 256 := b.isLt
  rw [BitVec.toNat_sub]
  omega

/-- Settles O31: the last write of each of the five is the one to `VF` that stays (R113). -/
theorem lastWriteStaysInVF : Obligations.LastWriteStaysInVF := by
  intro y s
  refine ⟨⟨_, rfl, ?_⟩, ⟨_, rfl, ?_⟩, ⟨_, rfl, ?_⟩, ⟨_, rfl, ?_⟩, ⟨_, rfl, ?_⟩⟩ <;> rw [State.setResult_reg]
  · rw [State.reg_setFlag, if_pos rfl, flagByte_toNat, addCarry_toNat]
  · rw [State.reg_setReg_same, byte_sub_toNat]
  · rw [State.reg_setReg_same, BitVec.toNat_ushiftRight, Nat.shiftRight_eq_div_pow, pow_one]
  · rw [State.reg_setReg_same, byte_sub_toNat]
  · rw [State.reg_setReg_same, BitVec.toNat_shiftLeft, Nat.shiftLeft_eq, pow_one, Nat.mul_comm]

/-! ## Construction and loading -/

/-- What a successful load does: the image stands at 0x200 and nothing else changes (R47). -/
theorem loadRom_spec {bytes : List Byte} {s t : State} (h : loadRom bytes s = .ok t) :
    t = { s with mem := t.mem } ∧ (∀ k < bytes.length, t.byteAt (0x200 + k) = bytes.getD k 0) ∧
      MemKeptOutside 0x200 bytes.length s t := by
  unfold loadRom at h
  split at h
  · cases h
  · cases h
    have hb (a : Nat) : (s.setMem (s.mem.pokeBytes s.font 0x200 bytes)).byteAt a =
        if 0x200 ≤ a ∧ a < 0x200 + bytes.length then bytes.getD (a - 0x200) 0 else s.byteAt a :=
      Memory.peek_pokeBytes s.font bytes s.mem 0x200 a
    refine ⟨rfl, fun k hk => (hb _).trans ?_, fun a ha => (hb a).trans (if_neg (by omega))⟩
    rw [if_pos (by omega), Nat.add_sub_cancel_left]

/-- Every pixel is unset after construction: its framebuffer is the one `clear` makes. -/
theorem pixel_construct (f : Config.Font) (X : Fin 64) (Y : Fin 32) : (State.construct f).pixel X Y = false :=
  State.pixel_clearDisplay (State.construct f) X Y

theorem reg_construct (f : Config.Font) (r : RegIdx) : (State.construct f).reg r = 0x00 := by
  simp [State.reg, State.construct]

/-- A byte of a glyph after construction: row `r` of digit `d` (R40, R45). -/
theorem resetByte_glyph (f : Config.Font) {d r : Nat} (hd : d < 16) (hr : r < 5) :
    resetByte f (f.base.val + 5 * d + r) = f.data.toList.getD (5 * d + r) 0 := by
  rw [Nat.add_assoc]
  exact resetByte_fontTable f (by omega)

/-- Settles O1: the fields are read off the construction; its memory lists nothing, so every byte is the font's or zero. -/
theorem resetLeavesConstructionValues : Obligations.ResetLeavesConstructionValues := by
  refine ⟨rfl, rfl, fun f => ⟨rfl, reg_construct f, rfl, rfl, rfl, rfl, rfl, rfl, pixel_construct f, ?_, ?_, ?_⟩⟩
  · exact fun d hd r hr => resetByte_glyph f hd hr
  · exact fun a ha => resetByte_outside f ha
  · exact fun bytes t ht => loadRom_spec ht

/-! ## A glyph drawn from the font -/

/-- The glyphs lie in the low region, so their addresses do not wrap (R44, R46). -/
theorem glyphAddress_toNat (base : Config.FontBase) (d : BitVec 4) : (glyphAddress base d).toNat = base.val + 5 * d.toNat := by
  have hb := base.isLt
  have hd : d.toNat < 16 := d.isLt
  rw [glyphAddress, BitVec.toNat_ofNat]
  omega

/-- With the invariant, the bytes at a glyph's address are the glyph's of `FONT_DATA`. -/
theorem State.Inv.byteAt_glyph {s : State} (h : s.Inv) {d r : Nat} (hd : d < 16) (hr : r < 5) :
    s.byteAt (s.font.base.val + 5 * d + r) = s.font.data.toList.getD (5 * d + r) 0 := by
  have hb := s.font.base.isLt
  rw [h.lowRegion _ (by omega), resetByte_glyph s.font hd hr]

/-- `Fx29` with a digit completes and points `I` at the digit's glyph (R131). -/
theorem exec_ldFVx_digit {s : State} {z : RegIdx} (hz : (s.reg z).toNat ≤ 15) :
    ∃ t, exec (.ldFVx z) s = .next t ∧ t = { s with I := t.I, result := .ok } ∧
      t.I.toNat = s.font.base.val + 5 * (s.reg z).toNat := by
  obtain ⟨t, ht, ⟨hz', -⟩ | ⟨-, rfl⟩⟩ := exec_effect (.ldFVx z) s
  · omega
  · have hd : ((s.reg z).setWidth 4).toNat = (s.reg z).toNat := by rw [BitVec.toNat_setWidth]; omega
    refine ⟨_, ht, rfl, ?_⟩
    rw [State.setResult_I, State.setI_I, glyphAddress_toNat, hd]

/-- Settles O57: `Fx29` points `I` at the glyph, all of whose rows exist, and the draw toggles the 1 bits of the bytes it reads there. -/
theorem glyphIsDrawnFromFontData : Obligations.GlyphIsDrawnFromFontData := by
  intro x y z s h hz
  obtain ⟨t, ht, hf, hI⟩ := exec_ldFVx_digit hz
  obtain ⟨u, hu, -, -, hres, hpix, -⟩ := exec_effect (.drw x y 5) t
  have hb := s.font.base.isLt
  have h5 : (5 : RowCount).toNat = 5 := rfl
  have hpx (X : Fin 64) (Y : Fin 32) : t.pixel X Y = s.pixel X Y := by rw [hf]; rfl
  have hreg (q : RegIdx) : t.reg q = s.reg q := by rw [hf]; rfl
  have hrow {r : Nat} (hr : r < 5) : t.byteAt (t.I.toNat + r) = s.font.data.toList.getD (5 * (s.reg z).toNat + r) 0 := by
    rw [hI, ← h.byteAt_glyph (by omega) hr, hf]
    rfl
  rw [h5] at hres hpix
  refine ⟨t, u, ht, hu, ?_, fun X Y => ?_⟩
  · rw [hres, if_pos (by omega)]
  · rw [← hpx, hpix, hreg x, hreg y]
    constructor
    · rintro ⟨r, c, hr, -, hc, ⟨hX, hY⟩, hbit⟩
      exact ⟨r, hr, c, hc, hX, hY, by rwa [← hrow hr]⟩
    · rintro ⟨r, hr, c, hc, hX, hY, hbit⟩
      exact ⟨r, c, hr, by omega, hc, ⟨hX, hY⟩, by rwa [hrow hr]⟩

end Sys2Proof.Machine
end

section
/-! PROOFS. Memory: the checked accesses, a stored word fetched again, loading a program, who writes which piece of state, and the
low region that no cycle writes. -/

namespace Sys2Proof.Machine

/-! ## The checked accesses -/

/-- Settles O5, by everything a byte read and a byte write can do. -/
theorem byteAccessChecksAndStores : Obligations.ByteAccessChecksAndStores := by
  intro a v s
  refine ⟨fun h => ⟨memRead_of_le h, memWrite_of_le h⟩, memRead_of_lt, memWrite_of_low, fun hlo hhi => ?_⟩
  refine ⟨s.setByte a v, memWrite_of_mem hlo hhi, rfl, ?_, fun b hb => ?_⟩
  · rw [memRead_of_lt hhi, State.byteAt_setByte, if_pos rfl]
  · rw [State.byteAt_setByte, if_neg hb]

/-- The first byte of a word is its high byte (R49). -/
theorem wordOfBytes_toNat (hi lo : Byte) : (wordOfBytes hi lo).toNat = 256 * hi.toNat + lo.toNat := by
  have happ : (wordOfBytes hi lo).toNat = hi.toNat <<< 8 ||| lo.toNat := BitVec.toNat_append hi lo
  rw [happ, ← Nat.shiftLeft_add_eq_or_of_lt lo.isLt, Nat.shiftLeft_eq, Nat.mul_comm]

/-- Settles O6, by everything a word read can do. -/
theorem wordReadIsBigEndian : Obligations.WordReadIsBigEndian := by
  intro a s
  rcases memReadWord_eq a s with ⟨h, e⟩ | ⟨h, e⟩ | ⟨h, e⟩
  · exact ⟨fun _ => e, fun _ => by omega, fun _ => by omega⟩
  · exact ⟨fun _ => by omega, fun _ => e, fun _ => by omega⟩
  · exact ⟨fun _ => by omega, fun _ => by omega, fun _ => ⟨_, e, wordOfBytes_toNat _ _⟩⟩

/-! ## A stored word is fetched -/

theorem memReadWord_of_lt {a : Nat} {s : State} (h : a + 1 < 4096) :
    memReadWord a s = .ok (wordOfBytes (s.byteAt a) (s.byteAt (a + 1))) := by
  rcases memReadWord_eq a s with ⟨h', -⟩ | ⟨h', -⟩ | ⟨-, e⟩
  · omega
  · omega
  · exact e

/-- A byte that a register store reaches is the register of its offset (R133). -/
theorem byteAt_of_storeEffect_regs {x r : RegIdx} {s t : State} (h : StoreEffect (s.regsUpTo x) s t) (hlo : 0x200 ≤ s.I.toNat)
    (hr : r.toNat ≤ x.toNat) (hhi : s.I.toNat + r.toNat < 4096) : t.byteAt (s.I.toNat + r.toNat) = s.reg r := by
  obtain ⟨-, -, hb⟩ := h
  rw [hb, State.regsUpTo_length, if_pos (by omega), Nat.add_sub_cancel_left, State.regsUpTo_getD s x r hr]

/-- Settles O38: the first two bytes of the store are `V0` and `V1`. -/
theorem storedWordIsFetched : Obligations.StoredWordIsFetched := by
  intro x s hx hlo hhi
  obtain ⟨t, ht, he⟩ := exec_effect (.ldMemVx x) s
  have h0 : t.byteAt s.I.toNat = s.reg 0 := byteAt_of_storeEffect_regs (r := 0) he hlo (Nat.zero_le _) (by simp; omega)
  have h1 : t.byteAt (s.I.toNat + 1) = s.reg 1 := byteAt_of_storeEffect_regs (r := 1) he hlo hx (by simp; omega)
  exact ⟨t, ht, by rw [memReadWord_of_lt (by omega), h0, h1]⟩

/-! ## Loading a program -/

/-- Everything a load can do (R47, R165). -/
theorem loadRom_eq (bytes : List Byte) (s : State) :
    (4096 < 0x200 + bytes.length ∧ loadRom bytes s = .error (.romTooLarge bytes.length)) ∨
    (0x200 + bytes.length ≤ 4096 ∧ loadRom bytes s = .ok (s.setMem (s.mem.pokeBytes s.font 0x200 bytes))) := by
  unfold loadRom
  by_cases h : Config.memSize < Config.progBase + bytes.length
  · exact .inl ⟨h, if_pos h⟩
  · exact .inr ⟨Nat.le_of_not_lt h, if_neg h⟩

/-- Settles O2: the two outcomes of a load exclude each other, and a load that succeeds is the copy of the image. -/
theorem loadRomCopiesImageOrFails : Obligations.LoadRomCopiesImageOrFails := by
  intro bytes s
  rcases loadRom_eq bytes s with ⟨hlen, e⟩ | ⟨hlen, e⟩
  · exact ⟨fun _ => e, fun h => by omega⟩
  · exact ⟨fun h => by omega, fun _ => ⟨_, e, loadRom_spec e⟩⟩

theorem loadRom_keeps_memForm {bytes : List Byte} {s t : State} (h : loadRom bytes s = .ok t) (hm : s.mem.wf s.font = true) :
    t.mem.wf t.font = true := by
  rcases loadRom_eq bytes s with ⟨-, e⟩ | ⟨hlen, e⟩ <;> rw [e] at h <;> cases h
  exact Memory.wf_pokeBytes s.font bytes hlen hm

/-- Settles O56: a load changes memory only, from 0x200 on, and keeps its canonical form. -/
theorem loadRomKeepsTheInvariant : Obligations.LoadRomKeepsTheInvariant := by
  intro bytes s t h ht
  obtain ⟨hf, -, hkept⟩ := loadRom_spec ht
  have hfont : t.font = s.font := by rw [hf]
  have hstack : t.stack = s.stack := by rw [hf]
  have hpc : t.PC = s.PC := by rw [hf]
  exact {
    stackBound := hstack ▸ h.stackBound
    stackEntries := hstack ▸ h.stackEntries
    pcBound := hpc ▸ h.pcBound
    lowRegion := fun a ha => by rw [hkept a (.inl ha), hfont]; exact h.lowRegion a ha
    memForm := loadRom_keeps_memForm ht h.memForm }

/-! ## Who writes which piece of state -/

/-- One of the instructions that write `I` (R26). -/
def WritesIndex (i : Instr) : Prop := (∃ nnn, i = .ldI nnn) ∨ ∃ x, i = .addIVx x ∨ i = .ldFVx x

/-- One of the instructions that write the framebuffer (R36). -/
def WritesDisplay (i : Instr) : Prop := i = .cls ∨ ∃ x y n, i = .drw x y n

/-- One of the instructions that write memory (R48). -/
def WritesMem (i : Instr) : Prop := ∃ x, i = .ldBVx x ∨ i = .ldMemVx x

/-- The effects that reach `I`, the framebuffer or memory are those of their writers (R26, R36, R48). -/
theorem effect_index_display_mem {i : Instr} {s t : State} (h : Effect i s t) :
    (t.I = s.I ∨ WritesIndex i) ∧ (t.FB = s.FB ∨ WritesDisplay i) ∧ (t.mem = s.mem ∨ WritesMem i) := by
  cases i with
  | ldI nnn => subst h; exact ⟨.inr (.inl ⟨nnn, rfl⟩), .inl rfl, .inl rfl⟩
  | addIVx x => subst h; exact ⟨.inr (.inr ⟨x, .inl rfl⟩), .inl rfl, .inl rfl⟩
  | ldFVx x =>
    rcases h with ⟨-, rfl⟩ | ⟨-, rfl⟩ <;> exact ⟨.inr (.inr ⟨x, .inr rfl⟩), .inl rfl, .inl rfl⟩
  | cls => subst h; exact ⟨.inl rfl, .inr (.inl rfl), .inl rfl⟩
  | drw x y n =>
    obtain ⟨hf, -⟩ := h
    rw [hf]
    exact ⟨.inl rfl, .inr (.inr ⟨x, y, n, rfl⟩), .inl rfl⟩
  | ldBVx x =>
    obtain ⟨hf, -⟩ := h
    rw [hf]
    exact ⟨.inl rfl, .inl rfl, .inr ⟨x, .inl rfl⟩⟩
  | ldMemVx x =>
    obtain ⟨hf, -⟩ := h
    rw [hf]
    exact ⟨.inl rfl, .inl rfl, .inr ⟨x, .inr rfl⟩⟩
  | ldVxMem x =>
    obtain ⟨hf, -⟩ := h
    rw [hf]
    exact ⟨.inl rfl, .inl rfl, .inl rfl⟩
  | ret => rcases h with ⟨-, rfl⟩ | ⟨_, _, -, rfl⟩ <;> exact ⟨.inl rfl, .inl rfl, .inl rfl⟩
  | call nnn => rcases h with ⟨-, rfl⟩ | ⟨-, rfl⟩ <;> exact ⟨.inl rfl, .inl rfl, .inl rfl⟩
  | skp x | sknp x =>
    rcases h with ⟨-, rfl⟩ | ⟨-, _, -, rfl⟩ | ⟨-, -, rfl⟩ <;> exact ⟨.inl rfl, .inl rfl, .inl rfl⟩
  | _ => subst h; exact ⟨.inl rfl, .inl rfl, .inl rfl⟩

namespace Change

variable {i : Instr} {s t : State}

theorem stack_eq (h : Change i s t) : t.stack = s.stack ∨ i = .ret ∨ ∃ nnn, i = .call nnn := by
  cases h with
  | ret => exact .inr (.inl rfl)
  | @call nnn => exact .inr (.inr ⟨nnn, rfl⟩)
  | data frame | skip _ frame | store frame => exact .inl (by rw [frame])
  | jump eq | jumpV0 eq | wait eq | delay eq | sound eq => exact .inl (by rw [eq]; rfl)

/-- No instruction writes a font parameter or a port field. -/
theorem ports_eq (h : Change i s t) :
    t.font = s.font ∧ t.inputs = s.inputs ∧ t.upcoming = s.upcoming ∧ t.freeIdx = s.freeIdx ∧ t.tone = s.tone := by
  cases h with
  | data frame | skip _ frame | store frame => rw [frame]; exact ⟨rfl, rfl, rfl, rfl, rfl⟩
  | jump eq | jumpV0 eq | call _ eq | ret _ _ _ eq | wait eq | delay eq | sound eq =>
    rw [eq]; exact ⟨rfl, rfl, rfl, rfl, rfl⟩

/-- No instruction writes a byte below 0x200 (R53). -/
theorem low_kept (h : Change i s t) : ∀ a < 0x200, t.byteAt a = s.byteAt a := by
  cases h with
  | store _ low => exact low
  | data frame | skip _ frame => intro a _; rw [frame]; rfl
  | jump eq | jumpV0 eq | call _ eq | ret _ _ _ eq | wait eq | delay eq | sound eq => intro a _; rw [eq]; rfl

end Change

/-- Settles O47: each piece of state is unchanged or the instruction is one of its writers. -/
theorem eachStateHasItsWriters : Obligations.EachStateHasItsWriters := by
  intro i s t h
  have hc := change_of_exec h
  obtain ⟨hI, hFB, hmem⟩ := effect_index_display_mem (effect_of_exec h)
  refine ⟨hI.resolve_left, fun hne => ?_, hFB.resolve_left, hmem.resolve_left, hc.stack_eq.resolve_left, fun hne => ?_,
    fun hne => ?_, hc.ports_eq⟩
  · obtain ⟨x, hi, -⟩ := hc.mode_eq.resolve_left hne
    exact ⟨x, hi⟩
  · obtain ⟨x, hi, -⟩ := hc.dt_eq.resolve_left hne
    exact ⟨x, hi⟩
  · obtain ⟨x, hi, -⟩ := hc.st_eq.resolve_left hne
    exact ⟨x, hi⟩

/-! ## The low region -/

/-- Settles O50: only an executed instruction can write memory, and none writes the low region. -/
theorem lowRegionIsNeverWritten : Obligations.LowRegionIsNeverWritten := by
  intro s t hstep
  cases cycleKind_of_step hstep with
  | waiting _ _ frame | audioFailed _ _ frame | noInstr _ frame => rw [frame]; exact ⟨rfl, fun _ _ => rfl⟩
  | executed _ _ change =>
    obtain ⟨hfont, -⟩ := change.ports_eq
    exact ⟨hfont, change.low_kept⟩

end Sys2Proof.Machine
end

section
/-! PROOFS. The unmatched words (R73 to R75, R77, R78): what each prefix leaves without an instruction. Fields are compared as
numbers, as the decoder's matches do. -/

namespace Sys2Proof.Machine

/-! ## The unmatched words of the prefixes that dispatch further -/

theorem decode0_unmatched_iff (w : Word) : decode0 w = .error (.unmatched w) ↔ w ≠ 0x00E0 ∧ w ≠ 0x00EE := by
  unfold decode0
  split_ifs with hcls hret
  · simp [hcls]
  · simp [hret]
  · exact iff_of_true rfl ⟨hcls, hret⟩

theorem decode8_unmatched_iff (w : Word) :
    decode8 w = .error (.unmatched w) ↔ fieldN w ∈ [0x8, 0x9, 0xA, 0xB, 0xC, 0xD, 0xF] := by
  have hlt := (fieldN w).isLt
  simp only [decode8, List.mem_cons, List.not_mem_nil, or_false, ← BitVec.toNat_inj, BitVec.reduceToNat]
  split
  case h_10 => exact iff_of_true rfl (by grind)
  all_goals exact iff_of_false nofun (by omega)

theorem decodeE_unmatched_iff (w : Word) : decodeE w = .error (.unmatched w) ↔ fieldKk w ∉ [0x9E, 0xA1] := by
  simp only [decodeE, List.mem_cons, List.not_mem_nil, or_false, ← BitVec.toNat_inj, BitVec.reduceToNat]
  split
  case h_3 => exact iff_of_true rfl (by grind)
  all_goals exact iff_of_false nofun (by simp [*])

theorem decodeF_unmatched_iff (w : Word) :
    decodeF w = .error (.unmatched w) ↔ fieldKk w ∉ [0x07, 0x0A, 0x15, 0x18, 0x1E, 0x29, 0x33, 0x55, 0x65] := by
  simp only [decodeF, List.mem_cons, List.not_mem_nil, or_false, ← BitVec.toNat_inj, BitVec.reduceToNat]
  split
  case h_10 => exact iff_of_true rfl (by grind)
  all_goals exact iff_of_false nofun (by simp [*])

/-- Settles O9, prefix by prefix. The decoder's last case is empty: sixteen prefixes come before it. -/
theorem unmatchedWordsAreExact : Obligations.UnmatchedWordsAreExact := by
  refine fun w => ⟨?_, fun _ => decode_error⟩
  have hlt := (fieldP w).isLt
  simp only [decode, ← BitVec.toNat_inj (x := fieldP w), BitVec.reduceToNat]
  split
  case h_1 prefix0 => simp [prefix0, decode0_unmatched_iff]
  case h_6 prefix5 => simp [prefix5]
  case h_9 prefix8 => simp [prefix8, decode8_unmatched_iff]
  case h_10 prefix9 => simp [prefix9]
  case h_15 prefixE => simp [prefixE, decodeE_unmatched_iff]
  case h_16 prefixF => simp [prefixF, decodeF_unmatched_iff]
  case h_17 =>
    exfalso
    grind
  all_goals exact iff_of_false nofun (by simp [*])

end Sys2Proof.Machine
end

section
/-! PROOFS. The cycle: what it is for a waiting state, for a state that comes to the fetch and for a parked one (R88 to R91, R97), and
the tone over all cycles. -/

namespace Sys2Proof.Machine

/-! ## The cycle by the state it starts from -/

/-- The cycle of a waiting state is the wait alone (R88). -/
theorem step_of_waiting {s : State} {r : RegIdx} (h : s.mode = .awaitingKey r) : step s = .next (waitForKey r s.begun) := by
  rw [step, stage, startCycle_eq, show s.begun.mode = .awaitingKey r from h]

/-- Everything a cycle that comes to the fetch can do (R91 to R93). -/
theorem step_of_reachesFetch {s : State} (h : ReachesFetch s) :
    (4096 ≤ s.PC.toNat ∧ step s = .next { s.timed with result := .err (.addressOutOfRange s.PC.toNat) }) ∨
    (s.PC.toNat = 4095 ∧ step s = .next { s.timed with result := .err (.addressOutOfRange 4096) }) ∨
    (s.PC.toNat + 1 < 4096 ∧ decode s.wordAtPC = .error (.unmatched s.wordAtPC) ∧
      step s = .next { s.fetched with result := .err (.unhandledInstruction s.wordAtPC) }) ∨
    (∃ i, Fetches s i ∧ step s = exec i s.fetched) := by
  rcases step_cases s with ⟨r, hm, -⟩ | ⟨e, -, ha, -⟩ | ⟨-, outside⟩ | ⟨-, half⟩ | ⟨-, unmatched⟩ | executes
  · exact absurd h (not_reachesFetch_of_waiting hm)
  · rw [h.2] at ha
    cases ha
  · exact .inl outside
  · exact .inr (.inl half)
  · exact .inr (.inr (.inl unmatched))
  · exact .inr (.inr (.inr executes))

/-! ## A parked state -/

/-- The two states agree in everything but the timers and the port fields. -/
def OnlyTimersAndPortsDiffer (s t : State) : Prop :=
  t = { s with DT := t.DT, ST := t.ST, inputs := t.inputs, upcoming := t.upcoming, freeIdx := t.freeIdx, tone := t.tone,
               result := t.result }

theorem OnlyTimersAndPortsDiffer.trans {s t u : State} (hst : OnlyTimersAndPortsDiffer s t) (htu : OnlyTimersAndPortsDiffer t u) :
    OnlyTimersAndPortsDiffer s u := by
  rw [OnlyTimersAndPortsDiffer] at *
  rw [htu, hst]

theorem decode_jp {w : Word} (h : fieldP w = 0x1) : decode w = .ok (.jp (fieldNnn w)) := by
  rw [decode, h]
  rfl

/-- The jump to an address below 4096 has the first digit of `1nnn`, since the address has a zero there. -/
theorem fieldP_selfJump {a : Word} (h : a.toNat < 4096) : fieldP (0x1000 ||| a) = 0x1 := by
  have ha : fieldP a = 0#4 := by
    refine BitVec.eq_of_toNat_eq ?_
    rw [fieldP, BitVec.extractLsb'_toNat, Nat.shiftRight_eq_div_pow, BitVec.toNat_ofNat]
    omega
  have hor : fieldP (0x1000 ||| a) = fieldP 0x1000 ||| fieldP a := BitVec.extractLsb'_or ..
  rw [hor, ha]
  rfl

/-- The jump to an address below 4096 has this address as its target. -/
theorem target_selfJump {a : Word} (h : a.toNat < 4096) : zextLit (fieldNnn (0x1000 ||| a)) = a := by
  have hor : fieldNnn (0x1000 ||| a) = fieldNnn 0x1000 ||| fieldNnn a := BitVec.extractLsb'_or ..
  have hnnn : fieldNnn (0x1000 ||| a) = fieldNnn a := hor.trans (BitVec.zero_or ..)
  refine BitVec.eq_of_toNat_eq ?_
  rw [hnnn, zextLit_toNat, fieldNnn, BitVec.extractLsb'_toNat, Nat.shiftRight_zero]
  omega

namespace State.Parked

variable {s t : State}

/-- Being parked does not depend on the timers and the port fields. -/
theorem of_onlyTimersAndPortsDiffer (h : s.Parked) (hst : OnlyTimersAndPortsDiffer s t) : t.Parked := by
  rw [hst]
  exact h

/-- A cycle of a parked state that comes to the fetch runs the jump back to `PC`, so that only steps 2 and 3 show. -/
theorem step_of_reachesFetch (h : s.Parked) (hr : ReachesFetch s) : step s = .next { s.timed with result := .ok } := by
  obtain ⟨-, hpc, hword⟩ := h
  have hjump : decode s.wordAtPC = .ok (.jp (fieldNnn s.wordAtPC)) := decode_jp (by rw [hword]; exact fieldP_selfJump (by omega))
  have htarget : zextLit (fieldNnn s.wordAtPC) = s.PC := by rw [hword]; exact target_selfJump (by omega)
  rcases Machine.step_of_reachesFetch hr with ⟨hout, -⟩ | ⟨hhalf, -⟩ | ⟨-, hd, -⟩ | ⟨i, ⟨-, -, hd⟩, e⟩
  · omega
  · omega
  · rw [hjump] at hd
    cases hd
  · rw [hjump] at hd
    cases hd
    obtain ⟨t, ht, eq⟩ := exec_effect (.jp (fieldNnn s.wordAtPC)) s.fetched
    rw [e, ht, eq, htarget]
    rfl

/-- A cycle of a parked state shows in the timers and the port fields only (R97). -/
theorem onlyTimersAndPortsDiffer_of_step (h : s.Parked) (hstep : step s = .next t) : OnlyTimersAndPortsDiffer s t := by
  by_cases hr : ReachesFetch s
  · rw [h.step_of_reachesFetch hr] at hstep
    cases hstep
    rfl
  · cases cycleKind_of_step hstep with
    | waiting r mode =>
      rw [h.1] at mode
      cases mode
    | audioFailed _ _ frame => rw [frame]; rfl
    | noInstr fetch => exact absurd fetch hr
    | executed _ fetch => exact absurd fetch.1 hr

end State.Parked

/-- Settles O58: what a cycle of a parked state can change, being parked does not read. -/
theorem everyCycleKeepsParked : Obligations.EveryCycleKeepsParked := by
  intro s t h hstep
  have frame := h.onlyTimersAndPortsDiffer_of_step hstep
  exact ⟨h.of_onlyTimersAndPortsDiffer frame, frame⟩

/-- Settles O53, by induction on the number of cycles: the first one comes to the fetch, and leaves a parked state with the inputs of the
others. -/
theorem parkedStateRepeats : Obligations.ParkedStateRepeats := by
  intro k
  induction k with
  | zero => exact fun s h _ _ => ⟨s, rfl, h, rfl, rfl, rfl, trivial⟩
  | succ k ih =>
    intro s h hlen hok
    obtain ⟨i, rest, hu⟩ := List.exists_cons_of_length_pos (Nat.lt_of_lt_of_le k.succ_pos hlen)
    rw [hu] at hlen hok
    have hnext : s.nextInputs = i := by rw [State.nextInputs, hu]
    have hrest : s.timed.upcoming = rest := congrArg List.tail hu
    have hstep := h.step_of_reachesFetch ⟨h.1, hnext ▸ hok i List.mem_cons_self⟩
    obtain ⟨hpark, hframe⟩ := everyCycleKeepsParked s _ h hstep
    obtain ⟨t, hrun, htpark, hDT, hST, htframe, hsafe⟩ := ih { s.timed with result := .ok } hpark
      (by rw [hrest]; exact Nat.le_of_succ_le_succ hlen)
      (by rw [hrest]; exact fun j hj => hok j (List.mem_cons_of_mem i hj))
    refine ⟨t, ?_, htpark, ?_, ?_, OnlyTimersAndPortsDiffer.trans hframe htframe, _, hstep, rfl, hsafe⟩
    · rw [afterCycles, hstep]
      exact hrun
    · rw [hDT, State.timed, decremented_toNat, Nat.sub_sub, Nat.add_comm]
    · rw [hST, State.timed, decremented_toNat, Nat.sub_sub, Nat.add_comm]

/-! ## Errors before the instruction, and the wait -/

/-- Settles O14: the three outcomes without an instruction exclude each other and the cycle that executes one. -/
theorem fetchErrorAndUnmatchedWord : Obligations.FetchErrorAndUnmatchedWord := by
  intro s hr
  rcases step_of_reachesFetch hr with ⟨hpc, e⟩ | ⟨hpc, e⟩ | ⟨hpc, -, e⟩ | ⟨i, hf, -⟩
  · exact ⟨fun _ => e, fun _ => by omega, fun _ => by omega⟩
  · exact ⟨fun _ => by omega, fun _ => e, fun _ => by omega⟩
  · exact ⟨fun _ => by omega, fun _ => by omega, fun _ _ => e⟩
  · obtain ⟨-, hpc, hd⟩ := hf
    rw [Config.memSize] at hpc
    refine ⟨fun _ => by omega, fun _ => by omega, fun _ hu => ?_⟩
    rw [hd] at hu
    cases hu

theorem zextKey_toNat (k : Key) : (zextKey k).toNat = k.toNat := BitVec.toNat_setWidth_of_le (by decide)

/-- Settles O16, by everything a wait can do: the query fails, or no key is down, or one is. -/
theorem waitingCycleOnlyLooksForAKey : Obligations.WaitingCycleOnlyLooksForAKey := by
  intro s r hm
  have hstep := step_of_waiting hm
  rcases waitForKey_eq r s.begun with ⟨e, he, hw⟩ | ⟨he, hk, hw⟩ | ⟨k, ks, he, hk, hw⟩ <;> rw [hw] at hstep
  · refine ⟨fun e' he' => ?_, fun he' => (nomatch he.symm.trans he'), fun _ _ he' => (nomatch he.symm.trans he')⟩
    obtain rfl := Option.some.inj (he.symm.trans he')
    exact hstep
  · exact ⟨fun _ he' => (nomatch he.symm.trans he'), fun _ _ => hstep, fun _ _ _ hk' => (nomatch hk.symm.trans hk')⟩
  · refine ⟨fun _ he' => (nomatch he.symm.trans he'), fun _ hk' => (nomatch hk.symm.trans hk'), fun k' ks' _ hk' => ?_⟩
    obtain ⟨rfl, -⟩ := List.cons.inj (hk.symm.trans hk')
    obtain ⟨-, hkept⟩ := setReg_frame s.begun r (zextKey k)
    refine ⟨_, hstep, rfl, ?_, hkept⟩
    rw [State.setMode_reg, State.reg_setReg_same, zextKey_toNat]

/-! ## Over all cycles -/

/-- Settles O17: a cycle without an instruction ends in a state, and so does every instruction. -/
theorem everyCycleEndsInAState : Obligations.EveryCycleEndsInAState := by
  intro s
  rcases step_cases s with ⟨r, -, e⟩ | ⟨c, -, -, e⟩ | ⟨-, -, e⟩ | ⟨-, -, e⟩ | ⟨-, -, -, e⟩ | ⟨i, -, e⟩
  case inr.inr.inr.inr.inr =>
    obtain ⟨t, ht, -⟩ := exec_effect i s.fetched
    exact ⟨t, e.trans ht⟩
  all_goals exact ⟨_, e⟩

/-- A wait does not touch the tone port. -/
theorem waitForKey_tone (r : RegIdx) (s : State) : (waitForKey r s).tone = s.tone := by
  rcases waitForKey_eq r s with ⟨e, -, hw⟩ | ⟨-, -, hw⟩ | ⟨k, ks, -, -, hw⟩ <;> rw [hw] <;> rfl

/-- Settles O18: step 2 of a `Running` cycle puts the tone out, and no instruction writes it. -/
theorem toneFollowsSoundTimer : Obligations.ToneFollowsSoundTimer := by
  intro s t hstep
  refine ⟨fun hm => ?_, fun r hm => ?_⟩
  · rcases step_cases s with ⟨r, hw, -⟩ | ⟨c, -, -, e⟩ | ⟨-, -, e⟩ | ⟨-, -, e⟩ | ⟨-, -, -, e⟩ | ⟨i, -, e⟩
    · rw [hm] at hw
      cases hw
    case inr.inr.inr.inr.inr =>
      rw [e] at hstep
      obtain ⟨-, -, -, -, htone⟩ := (change_of_exec hstep).ports_eq
      exact htone
    all_goals
      rw [e] at hstep
      cases hstep
      rfl
  · rw [step_of_waiting hm] at hstep
    cases hstep
    exact waitForKey_tone r s.begun

end Sys2Proof.Machine
end

section
/-! PROOFS. The jumps and the skips (R103, R105 to R109): how their words decode, and what they do to `PC`. -/

namespace Sys2Proof.Machine

/-! ## Their words -/

theorem decode_jpV0 {w : Word} (h : fieldP w = 0xB) : decode w = .ok (.jpV0 (fieldNnn w)) := by
  rw [decode, h]
  rfl

theorem decode_seImm {w : Word} (h : fieldP w = 0x3) : decode w = .ok (.seImm (fieldX w) (fieldKk w)) := by
  rw [decode, h]
  rfl

theorem decode_sneImm {w : Word} (h : fieldP w = 0x4) : decode w = .ok (.sneImm (fieldX w) (fieldKk w)) := by
  rw [decode, h]
  rfl

theorem decode_seReg {w : Word} (h : fieldP w = 0x5) (hn : fieldN w = 0) : decode w = .ok (.seReg (fieldX w) (fieldY w)) := by
  rw [decode, h]
  exact if_pos hn

theorem decode_sneReg {w : Word} (h : fieldP w = 0x9) (hn : fieldN w = 0) : decode w = .ok (.sneReg (fieldX w) (fieldY w)) := by
  rw [decode, h]
  exact if_pos hn

/-! ## The jumps -/

/-- Settles O20: the effect of a jump is one write of `PC`, and the sum of the indexed jump fits the register. -/
theorem jumpsSetPC : Obligations.JumpsSetPC := by
  refine ⟨fun w hw => decode_jp (fieldP_of_mask hw rfl), fun w hw => decode_jpV0 (fieldP_of_mask hw rfl), fun nnn s => ⟨?_, ?_⟩⟩
  · obtain ⟨t, ht, rfl⟩ := exec_effect (.jp nnn) s
    exact ⟨_, ht, rfl, zextLit_toNat nnn⟩
  · obtain ⟨t, ht, rfl⟩ := exec_effect (.jpV0 nnn) s
    exact ⟨_, ht, rfl, jpV0_target_toNat nnn (s.reg 0)⟩

/-! ## The skips -/

/-- What a skip with condition `p` answers; `q` is how its statement says that the condition fails. -/
theorem exec_skip_spec {i : Instr} {s : State} {p q : Prop} [Decidable p]
    (h : ∃ t, exec i s = .next t ∧ t = (s.skipIf (decide p)).setResult .ok) (hq : q → ¬ p) :
    ∃ t, exec i s = .next t ∧ t = { s with PC := t.PC, result := .ok } ∧ (p → t.PC = s.PC + 2) ∧ (q → t.PC = s.PC) := by
  obtain ⟨t, ht, rfl⟩ := h
  refine ⟨_, ht, rfl, fun hp => ?_, fun hqs => ?_⟩ <;> rw [State.setResult_PC, State.skipIf_PC]
  · rw [decide_eq_true hp, if_pos rfl]
  · rw [decide_eq_false (hq hqs), if_neg Bool.false_ne_true]

/-- Settles O24: both instructions skip by the same operation, on opposite conditions. -/
theorem immediateSkips : Obligations.ImmediateSkips := by
  refine ⟨fun w hw => decode_seImm (fieldP_of_mask hw rfl), fun w hw => decode_sneImm (fieldP_of_mask hw rfl), fun x kk s => ⟨?_, ?_⟩⟩
  · exact exec_skip_spec (exec_effect (.seImm x kk) s) id
  · exact exec_skip_spec (exec_effect (.sneImm x kk) s) not_not_intro

/-- Settles O25: a low nibble that is not 0 is among the unmatched words of O9, and the two skips are as the immediate ones. -/
theorem registerSkips : Obligations.RegisterSkips := by
  refine ⟨fun w hw => ?_, fun w hw => ?_, fun w hp hn => ?_, fun x y s => ⟨?_, ?_⟩⟩
  · exact decode_seReg (fieldP_of_mask hw rfl) (fieldN_of_mask hw rfl)
  · exact decode_sneReg (fieldP_of_mask hw rfl) (fieldN_of_mask hw rfl)
  · refine (unmatchedWordsAreExact w).1.mpr ?_
    rcases hp with h5 | h9
    · exact .inr (.inl ⟨h5, hn⟩)
    · exact .inr (.inr (.inr (.inl ⟨h9, hn⟩)))
  · exact exec_skip_spec (exec_effect (.seReg x y) s) id
  · exact exec_skip_spec (exec_effect (.sneReg x y) s) not_not_intro

end Sys2Proof.Machine
end

section
/-! PROOFS. The register loads and the arithmetic (R114 to R127): how their words decode, and what their writes of `Vx` and `VF` leave. -/

namespace Sys2Proof.Machine

/-! ## Their words -/

theorem decode_ldImm {w : Word} (h : fieldP w = 0x6) : decode w = .ok (.ldImm (fieldX w) (fieldKk w)) := by
  rw [decode, h]
  rfl

theorem decode_addImm {w : Word} (h : fieldP w = 0x7) : decode w = .ok (.addImm (fieldX w) (fieldKk w)) := by
  rw [decode, h]
  rfl

theorem decode_rnd {w : Word} (h : fieldP w = 0xC) : decode w = .ok (.rnd (fieldX w) (fieldKk w)) := by
  rw [decode, h]
  rfl

/-- The words that begin with 8 are told apart by their low nibble (R74). -/
theorem encodes_of_decode8 {b : Word} {f : Word → Instr} (hb : fieldP b = 0x8)
    (hf : ∀ w, fieldN w = fieldN b → decode8 w = .ok (f w)) : Encodes 0xF00F b f := by
  intro w hw
  rw [decode, fieldP_of_mask hw rfl, hb]
  exact hf w (fieldN_of_mask hw rfl)

/-! ## Instructions that write one register -/

/-- What an instruction answers whose effect is one register write. -/
theorem exec_write_spec {i : Instr} {s : State} {x : RegIdx} {b : Byte}
    (h : ∃ t, exec i s = .next t ∧ t = (s.setReg x b).setResult .ok) :
    ∃ t, exec i s = .next t ∧ t = { s with V := t.V, result := .ok } ∧ t.reg x = b ∧ RegsKept [x] s t ∧ MemKept s t := by
  obtain ⟨t, ht, rfl⟩ := h
  exact ⟨_, ht, rfl, State.reg_setReg_same s x b, (setReg_frame s x b).2, fun _ => rfl⟩

/-- Settles O26: the byte sum is the sum of the numbers modulo 256. -/
theorem immediateLoadAndAdd : Obligations.ImmediateLoadAndAdd := by
  refine ⟨fun w hw => decode_ldImm (fieldP_of_mask hw rfl), fun w hw => decode_addImm (fieldP_of_mask hw rfl), fun x kk s => ⟨?_, ?_⟩⟩
  · exact exec_write_spec (exec_effect (.ldImm x kk) s)
  · obtain ⟨t, ht, hf, hx, hk, hm⟩ := exec_write_spec (exec_effect (.addImm x kk) s)
    exact ⟨t, ht, hf, by rw [hx, BitVec.toNat_add], hk, hm⟩

/-- Settles O32: the mask works on each bit of the cycle's random byte. -/
theorem randomByteUnderMask : Obligations.RandomByteUnderMask := by
  refine ⟨fun w hw => decode_rnd (fieldP_of_mask hw rfl), fun x kk s => ?_⟩
  obtain ⟨t, ht, hf, hx, hk, hm⟩ := exec_write_spec (exec_effect (.rnd x kk) s)
  exact ⟨t, ht, hf, fun k _ => by rw [hx, BitVec.getLsbD_and], hk, hm⟩

/-- Settles O27: each of the four is one register write, and the logic works on each bit. -/
theorem copyAndLogic : Obligations.CopyAndLogic := by
  refine ⟨encodes_of_decode8 rfl fun w hn => by rw [decode8, hn]; rfl, encodes_of_decode8 rfl fun w hn => by rw [decode8, hn]; rfl,
    encodes_of_decode8 rfl fun w hn => by rw [decode8, hn]; rfl, encodes_of_decode8 rfl fun w hn => by rw [decode8, hn]; rfl,
    fun x y s => ⟨?_, ?_, ?_, ?_⟩⟩
  · exact exec_write_spec (exec_effect (.ldReg x y) s)
  · obtain ⟨t, ht, hf, hx, hk, hm⟩ := exec_write_spec (exec_effect (.orReg x y) s)
    exact ⟨t, ht, hf, fun k _ => by rw [hx, BitVec.getLsbD_or], hk, hm⟩
  · obtain ⟨t, ht, hf, hx, hk, hm⟩ := exec_write_spec (exec_effect (.andReg x y) s)
    exact ⟨t, ht, hf, fun k _ => by rw [hx, BitVec.getLsbD_and], hk, hm⟩
  · obtain ⟨t, ht, hf, hx, hk, hm⟩ := exec_write_spec (exec_effect (.xorReg x y) s)
    exact ⟨t, ht, hf, fun k _ => by rw [hx, BitVec.getLsbD_xor], hk, hm⟩

/-! ## Instructions that write a register and the flag -/

theorem flagByte_of_true {p : Prop} [Decidable p] (h : p) : (if decide p then 0x01 else 0x00 : Byte) = 0x01 :=
  if_pos (decide_eq_true h)

theorem flagByte_of_false {p : Prop} [Decidable p] (h : ¬ p) : (if decide p then 0x01 else 0x00 : Byte) = 0x00 :=
  if_neg (by rwa [decide_eq_true_iff])

/-- What an instruction answers that writes the flag last: the flag stays, whatever `x` is (R113). -/
theorem exec_write_flag_spec {i : Instr} {s : State} {x : RegIdx} {b : Byte} {c : Bool}
    (h : ∃ t, exec i s = .next t ∧ t = ((s.setReg x b).setFlag c).setResult .ok) :
    ∃ t, exec i s = .next t ∧ t = { s with V := t.V, result := .ok } ∧ RegsKept [x, 15] s t ∧ MemKept s t ∧
      (x ≠ 15 → t.reg x = b) ∧ t.reg 15 = if c then 0x01 else 0x00 := by
  obtain ⟨t, ht, rfl⟩ := h
  refine ⟨_, ht, rfl, fun r hr => ?_, fun _ => rfl, fun hx => ?_, ?_⟩ <;> rw [State.setResult_reg, State.reg_setFlag]
  · obtain ⟨hrx, hrf⟩ : r ≠ x ∧ r ≠ 15 := by simpa using hr
    rw [if_neg hrf, State.reg_setReg_ne s b hrx]
  · rw [if_neg hx, State.reg_setReg_same]
  · rw [if_pos rfl]

/-- What an instruction answers that writes the flag first: the value of `Vx` stays, and the flag when `x` is another register (R113). -/
theorem exec_flag_write_spec {i : Instr} {s : State} {x : RegIdx} {b : Byte} {c : Bool}
    (h : ∃ t, exec i s = .next t ∧ t = ((s.setFlag c).setReg x b).setResult .ok) :
    ∃ t, exec i s = .next t ∧ t = { s with V := t.V, result := .ok } ∧ RegsKept [x, 15] s t ∧ MemKept s t ∧
      t.reg x = b ∧ (x ≠ 15 → t.reg 15 = if c then 0x01 else 0x00) := by
  obtain ⟨t, ht, rfl⟩ := h
  refine ⟨_, ht, rfl, fun r hr => ?_, fun _ => rfl, ?_, fun hx => ?_⟩ <;> rw [State.setResult_reg]
  · obtain ⟨hrx, hrf⟩ : r ≠ x ∧ r ≠ 15 := by simpa using hr
    rw [State.reg_setReg_ne _ b hrx, State.reg_setFlag, if_neg hrf]
  · rw [State.reg_setReg_same]
  · rw [State.reg_setReg_ne _ b hx.symm, State.reg_setFlag, if_pos rfl]

/-- Settles O28: the carry is the last write. -/
theorem addSetsSumThenCarry : Obligations.AddSetsSumThenCarry := by
  refine ⟨encodes_of_decode8 rfl fun w hn => by rw [decode8, hn]; rfl, fun x y s => ?_⟩
  obtain ⟨t, ht, hf, hk, hm, hx, hc⟩ := exec_write_flag_spec (exec_effect (.addReg x y) s)
  refine ⟨t, ht, hf, hk, hm, fun hne => ?_, fun hover => ?_, fun hfits => ?_⟩
  · rw [hx hne, BitVec.toNat_add]
  · exact hc.trans (flagByte_of_true hover)
  · exact hc.trans (flagByte_of_false (not_lt.mpr hfits))

/-- What a subtraction of `b` from `a` answers, into whichever register. -/
theorem exec_difference_spec {i : Instr} {s : State} {x : RegIdx} {a b : Byte}
    (h : ∃ t, exec i s = .next t ∧ t = ((s.setFlag (subFlag a b)).setReg x (a - b)).setResult .ok) :
    ∃ t, exec i s = .next t ∧ t = { s with V := t.V, result := .ok } ∧ RegsKept [x, 15] s t ∧ MemKept s t ∧
      (t.reg x).toNat = (a.toNat + 256 - b.toNat) % 256 ∧
      (x ≠ 15 → b.toNat < a.toNat → t.reg 15 = 0x01) ∧ (x ≠ 15 → a.toNat ≤ b.toNat → t.reg 15 = 0x00) := by
  obtain ⟨t, ht, hf, hk, hm, hx, hc⟩ := exec_flag_write_spec h
  refine ⟨t, ht, hf, hk, hm, ?_, fun hne hlt => ?_, fun hne hle => ?_⟩
  · rw [hx, byte_sub_toNat]
  · exact (hc hne).trans (flagByte_of_true hlt)
  · exact (hc hne).trans (flagByte_of_false (not_lt.mpr hle))

/-- Settles O29: SUBN is SUB with the operands exchanged. -/
theorem subtractionsSetFlagThenDifference : Obligations.SubtractionsSetFlagThenDifference := by
  refine ⟨encodes_of_decode8 rfl fun w hn => by rw [decode8, hn]; rfl, encodes_of_decode8 rfl fun w hn => by rw [decode8, hn]; rfl,
    fun x y s => ⟨?_, ?_⟩⟩
  · exact exec_difference_spec (exec_effect (.subReg x y) s)
  · exact exec_difference_spec (a := s.reg y) (b := s.reg x) (exec_effect (.subnReg x y) s)

/-! ## The shifts -/

theorem shrFlag_toNat (v : Byte) : (shrFlag v).toNat = v.toNat % 2 := by
  rw [shrFlag, BitVec.getLsbD, Nat.toNat_testBit, pow_zero, Nat.div_one]

theorem shlFlag_toNat (v : Byte) : (shlFlag v).toNat = v.toNat / 128 := by
  have hv : v.toNat < 256 := v.isLt
  rw [shlFlag, BitVec.getLsbD, Nat.toNat_testBit]
  omega

/-- Of the mask 0xA0 only bit 7 is left after the shift, so the reference's formula is the bit shifted out (R124, C2). -/
theorem shlFlag_eq_mask (v : Byte) : (if shlFlag v then 0x01 else 0x00 : Byte) = (v &&& 0xA0) >>> 7 := by
  have hv : v.toNat / 128 < 2 := by have := v.isLt; omega
  have hbit7 : (v &&& 0xA0) >>> 7 = v >>> 7 &&& 1 := BitVec.ushiftRight_and_distrib v 0xA0 7
  refine BitVec.eq_of_toNat_eq ?_
  calc (if shlFlag v then 0x01 else 0x00 : Byte).toNat
    _ = v.toNat / 128 := by rw [flagByte_toNat, shlFlag_toNat]
    _ = v.toNat / 128 % 2 := (Nat.mod_eq_of_lt hv).symm
    _ = (v.toNat >>> 7) &&& 1 := by rw [Nat.and_one_is_mod, Nat.shiftRight_eq_div_pow]
    _ = ((v &&& 0xA0) >>> 7).toNat := by rw [hbit7, BitVec.toNat_and, BitVec.toNat_ushiftRight]; rfl

/-- Settles O30: both shift `Vx` after the flag has taken the bit that falls out. -/
theorem shiftsSetFlagThenResult : Obligations.ShiftsSetFlagThenResult := by
  refine ⟨encodes_of_decode8 rfl fun w hn => by rw [decode8, hn]; rfl, encodes_of_decode8 rfl fun w hn => by rw [decode8, hn]; rfl,
    fun x y s => ⟨?_, ?_⟩⟩
  · obtain ⟨t, ht, hf, hk, hm, hx, hc⟩ := exec_flag_write_spec (exec_effect (.shr x y) s)
    refine ⟨t, ht, hf, hk, hm, ?_, fun hne => ?_⟩
    · rw [hx, BitVec.toNat_ushiftRight, Nat.shiftRight_eq_div_pow, pow_one]
    · rw [hc hne, flagByte_toNat, shrFlag_toNat]
  · obtain ⟨t, ht, hf, hk, hm, hx, hc⟩ := exec_flag_write_spec (exec_effect (.shl x y) s)
    refine ⟨t, ht, hf, hk, hm, ?_, fun hne => ?_, fun hne => ?_⟩
    · rw [hx, BitVec.toNat_shiftLeft, Nat.shiftLeft_eq, pow_one, Nat.mul_comm]
    · rw [hc hne, flagByte_toNat, shlFlag_toNat]
    · rw [hc hne, shlFlag_eq_mask]

end Sys2Proof.Machine
end

section
/-! PROOFS. The index register and memory instructions (R129 to R134): how their words decode, what they write to `I`, and where a block
store or load ends. -/

namespace Sys2Proof.Machine

/-! ## Their words -/

theorem decode_ldI {w : Word} (h : fieldP w = 0xA) : decode w = .ok (.ldI (fieldNnn w)) := by
  rw [decode, h]
  rfl

/-- The words that begin with F are told apart by their low byte (R78). -/
theorem encodes_of_decodeF {b : Word} {f : Word → Instr} (hb : fieldP b = 0xF)
    (hf : ∀ w, fieldKk w = fieldKk b → decodeF w = .ok (f w)) : Encodes 0xF0FF b f := by
  intro w hw
  rw [decode, fieldP_of_mask hw rfl, hb]
  exact hf w (fieldKk_of_mask hw rfl)

/-! ## The index register -/

theorem zextByte_toNat (v : Byte) : (zextByte v).toNat = v.toNat := BitVec.toNat_setWidth_of_le (by decide)

/-- Settles O33: both instructions are one write of `I`, and the sum of two words is the sum of the numbers modulo 65536. -/
theorem indexLoadAndAdd : Obligations.IndexLoadAndAdd := by
  refine ⟨fun w hw => decode_ldI (fieldP_of_mask hw rfl), encodes_of_decodeF rfl fun w hk => by rw [decodeF, hk]; rfl,
    fun nnn s => ?_, fun x s => ?_⟩
  · obtain ⟨t, ht, rfl⟩ := exec_effect (.ldI nnn) s
    exact ⟨_, ht, rfl, zextLit_toNat nnn⟩
  · obtain ⟨t, ht, rfl⟩ := exec_effect (.addIVx x) s
    refine ⟨_, ht, rfl, ?_⟩
    rw [State.setResult_I, State.setI_I, BitVec.toNat_add, zextByte_toNat]

/-- Settles O34: a value up to 15 is a digit, whose glyph's address does not wrap; a greater one is none. -/
theorem glyphAddressOrInvalidGlyph : Obligations.GlyphAddressOrInvalidGlyph := by
  refine ⟨encodes_of_decodeF rfl fun w hk => by rw [decodeF, hk]; rfl, fun x s => ⟨exec_ldFVx_digit, fun hx => ?_⟩⟩
  obtain ⟨t, ht, ⟨-, rfl⟩ | ⟨hx', -⟩⟩ := exec_effect (.ldFVx x) s
  · exact ht
  · omega

/-! ## Where a block store ends -/

section BlockStore

variable {bytes : List Byte} {a : Nat} {s : State}

/-- A store that begins below 0x200 writes nothing (R53). -/
theorem storeBytes_of_low (hb : bytes ≠ []) (h : a < 0x200) :
    storeBytes a bytes s = .next { s with result := .err (.protectedWrite a) } := by
  obtain ⟨b, bs, rfl⟩ := List.exists_cons_of_ne_nil hb
  rw [storeBytes, memWrite_of_low h]
  rfl

/-- A store that begins outside memory writes nothing (R52). -/
theorem storeBytes_of_le (hb : bytes ≠ []) (h : 4096 ≤ a) :
    storeBytes a bytes s = .next { s with result := .err (.addressOutOfRange a) } := by
  obtain ⟨b, bs, rfl⟩ := List.exists_cons_of_ne_nil hb
  rw [storeBytes, memWrite_of_le h]
  rfl

/-- A store all of whose addresses can be written completes. -/
theorem storeBytes_of_fits (hlo : 0x200 ≤ a) (hhi : a + bytes.length ≤ 4096) :
    ∃ t, storeBytes a bytes s = .next t ∧ t = { s with mem := t.mem, result := .ok } ∧
      (∀ k < bytes.length, t.byteAt (a + k) = bytes.getD k 0) ∧ MemKeptOutside a bytes.length s t := by
  obtain ⟨t, ht, hf, hres, hbyte⟩ := storeBytes_spec bytes a s
  have hok : t.result = .ok := by rw [hres, if_neg hlo.not_gt, if_pos hhi, ite_self]
  refine ⟨t, ht, hf.trans (by rw [hok]), fun k hk => ?_, fun b hb => ?_⟩
  · rw [hbyte, if_pos (by omega), Nat.add_sub_cancel_left]
  · rw [hbyte, if_neg (by omega)]

/-- A store that runs past the end of memory raises its error at 4096, and the bytes before stay stored (R64). -/
theorem storeBytes_past_end (hlo : 0x200 ≤ a) (ha : a < 4096) (hhi : 4096 < a + bytes.length) :
    ∃ t, storeBytes a bytes s = .next t ∧ t = { s with mem := t.mem, result := .err (.addressOutOfRange 4096) } ∧
      (∀ k, a + k < 4096 → t.byteAt (a + k) = bytes.getD k 0) ∧ MemKeptOutside a (4096 - a) s t := by
  obtain ⟨t, ht, hf, hres, hbyte⟩ := storeBytes_spec bytes a s
  have hne : bytes ≠ [] := List.ne_nil_of_length_pos (by omega)
  have herr : t.result = .err (.addressOutOfRange 4096) := by
    rw [hres, if_neg hne, if_neg (by omega), if_neg (by omega), Nat.max_eq_right ha.le]
  refine ⟨t, ht, hf.trans (by rw [herr]), fun k hk => ?_, fun b hb => ?_⟩
  · rw [hbyte, if_pos (by omega), Nat.add_sub_cancel_left]
  · rw [hbyte, if_neg (by omega)]

end BlockStore

/-! ## The stores of digits and of registers -/

theorem exec_ldBVx (x : RegIdx) (s : State) : exec (.ldBVx x) s = storeBytes s.I.toNat (bcdDigits (s.reg x)) s := rfl

theorem exec_ldMemVx (x : RegIdx) (s : State) : exec (.ldMemVx x) s = storeBytes s.I.toNat (s.regsUpTo x) s := rfl

/-- The hundreds of a byte fit a byte (R132). -/
theorem bcdDigits_hundreds (v : Byte) : ((bcdDigits v).getD 0 0).toNat = v.toNat / 100 :=
  (BitVec.toNat_ofNat _ 8).trans (Nat.mod_eq_of_lt (by omega))

theorem bcdDigits_tens (v : Byte) : ((bcdDigits v).getD 1 0).toNat = v.toNat / 10 % 10 :=
  (BitVec.toNat_ofNat _ 8).trans (Nat.mod_eq_of_lt (by omega))

theorem bcdDigits_units (v : Byte) : ((bcdDigits v).getD 2 0).toNat = v.toNat % 10 :=
  (BitVec.toNat_ofNat _ 8).trans (Nat.mod_eq_of_lt (by omega))

theorem bcdDigits_length (v : Byte) : (bcdDigits v).length = 3 := rfl

theorem bcdDigits_ne_nil (v : Byte) : bcdDigits v ≠ [] := List.cons_ne_nil _ _

theorem regsUpTo_ne_nil (s : State) (x : RegIdx) : s.regsUpTo x ≠ [] :=
  List.ne_nil_of_length_pos (by rw [State.regsUpTo_length]; omega)

/-- Settles O35: by where the store of the three digits ends. -/
theorem bcdStoresThreeDigits : Obligations.BcdStoresThreeDigits := by
  refine ⟨encodes_of_decodeF rfl fun w hk => by rw [decodeF, hk]; rfl, fun x s => ?_⟩
  rw [exec_ldBVx]
  have hlen := bcdDigits_length (s.reg x)
  refine ⟨fun hlo hhi => ?_, storeBytes_of_low (bcdDigits_ne_nil _), storeBytes_of_le (bcdDigits_ne_nil _), fun hI hhi => ?_⟩
  · obtain ⟨t, ht, hf, hbyte, hkept⟩ := storeBytes_of_fits (bytes := bcdDigits (s.reg x)) (s := s) hlo (by omega)
    refine ⟨t, ht, hf, ?_, ?_, ?_, hkept⟩
    · rw [← bcdDigits_hundreds, ← hbyte 0 (by omega), Nat.add_zero]
    · rw [hbyte 1 (by omega), bcdDigits_tens]
    · rw [hbyte 2 (by omega), bcdDigits_units]
  · obtain ⟨t, ht, hf, hbyte, hkept⟩ := storeBytes_past_end (bytes := bcdDigits (s.reg x)) (s := s) (by omega) hI (by omega)
    refine ⟨t, ht, hf, ?_, fun h1 => ?_, hkept⟩
    · rw [← bcdDigits_hundreds, ← hbyte 0 hI, Nat.add_zero]
    · rw [hbyte 1 h1, bcdDigits_tens]

/-- Settles O36: by where the store of the registers ends. -/
theorem blockStoreWritesRegisters : Obligations.BlockStoreWritesRegisters := by
  refine ⟨encodes_of_decodeF rfl fun w hk => by rw [decodeF, hk]; rfl, fun x s => ?_⟩
  rw [exec_ldMemVx]
  have hlen := s.regsUpTo_length x
  refine ⟨fun hlo hhi => ?_, storeBytes_of_low (regsUpTo_ne_nil s x), storeBytes_of_le (regsUpTo_ne_nil s x), fun hlo hI hhi => ?_⟩
  · obtain ⟨t, ht, hf, hbyte, hkept⟩ := storeBytes_of_fits (bytes := s.regsUpTo x) (s := s) hlo (by omega)
    refine ⟨t, ht, hf, fun r hr => ?_, hlen ▸ hkept⟩
    rw [hbyte _ (by omega), State.regsUpTo_getD s x r hr]
  · obtain ⟨t, ht, hf, hbyte, hkept⟩ := storeBytes_past_end (bytes := s.regsUpTo x) (s := s) hlo hI (by omega)
    refine ⟨t, ht, hf, fun r hr hrI => ?_, hkept⟩
    rw [hbyte _ hrI, State.regsUpTo_getD s x r hr]

/-! ## The block load -/

/-- A load that begins outside memory loads nothing (R50). -/
theorem exec_ldVxMem_of_le {x : RegIdx} {s : State} (h : 4096 ≤ s.I.toNat) :
    exec (.ldVxMem x) s = .next { s with result := .err (.addressOutOfRange s.I.toNat) } := by
  change loadRegs s.I.toNat 0 (x.toNat + 1) s = _
  rw [loadRegs, memRead_of_le h]
  rfl

/-- Settles O37: by where the load ends; it keeps memory, wherever that is. -/
theorem blockLoadReadsRegisters : Obligations.BlockLoadReadsRegisters := by
  refine ⟨encodes_of_decodeF rfl fun w hk => by rw [decodeF, hk]; rfl, fun x s => ?_⟩
  obtain ⟨t, ht, hf, hres, hreg⟩ := exec_effect (.ldVxMem x) s
  have hmem : MemKept s t := fun a => by rw [hf]; rfl
  refine ⟨fun hhi => ?_, exec_ldVxMem_of_le, fun hI hhi => ?_⟩
  · have hok : t.result = .ok := by rw [hres, if_pos hhi]
    refine ⟨t, ht, hf.trans (by rw [hok]), fun r hr => ?_, fun r hr => ?_, hmem⟩
    · rw [hreg, if_pos (by omega)]
    · rw [hreg, if_neg (by omega)]
  · have herr : t.result = .err (.addressOutOfRange 4096) := by rw [hres, if_neg (by omega), Nat.max_eq_right hI.le]
    refine ⟨t, ht, hf.trans (by rw [herr]), fun r hr hrI => ?_, fun r hr => ?_, hmem⟩
    · rw [hreg, if_pos ⟨hr, hrI⟩]
    · rw [hreg, if_neg (by omega)]

end Sys2Proof.Machine
end

section
/-! PROOFS. The display instructions (R137 to R141): how their words decode, and the rows of a sprite that a draw reaches. -/

namespace Sys2Proof.Machine

/-! ## Their words -/

theorem decode_drw {w : Word} (h : fieldP w = 0xD) : decode w = .ok (.drw (fieldX w) (fieldY w) (fieldN w)) := by
  rw [decode, h]
  rfl

/-- CLS has no operand: its mask is full, and one word encodes it. -/
theorem encodes_cls : Encodes 0xFFFF 0x00E0 (fun _ => .cls) := by
  intro w hw
  have hword : w = 0x00E0 := (BitVec.and_allOnes (x := w)).symm.trans hw
  rw [hword]
  rfl

/-! ## Clear -/

/-- Settles O39: the clear is one write of the framebuffer. -/
theorem clearUnsetsEveryPixel : Obligations.ClearUnsetsEveryPixel := by
  refine ⟨encodes_cls, fun s => ?_⟩
  obtain ⟨t, ht, rfl⟩ := exec_effect .cls s
  exact ⟨_, ht, rfl, State.pixel_clearDisplay s, fun _ => rfl⟩

/-! ## Draw -/

/-- How many rows a draw of `n` rows reads: those whose byte exists (R138, R144). -/
def rowsInMemory (s : State) (n : RowCount) : Nat := min n.toNat (4096 - s.I.toNat)

theorem lt_rowsInMemory_iff {s : State} {n : RowCount} {r : Nat} :
    r < rowsInMemory s n ↔ r < n.toNat ∧ s.I.toNat + r < 4096 := by
  rw [rowsInMemory]
  omega

theorem rowsInMemory_of_fits {s : State} {n : RowCount} (h : n = 0 ∨ s.I.toNat + n.toNat ≤ 4096) : rowsInMemory s n = n.toNat := by
  obtain rfl | h := h
  · exact Nat.zero_min _
  · exact Nat.min_eq_left (by omega)

theorem rowsInMemory_past_end {s : State} {n : RowCount} (h : 4096 < s.I.toNat + n.toNat) : rowsInMemory s n = 4096 - s.I.toNat :=
  Nat.min_eq_right (by omega)

/-- The two outcomes of a draw in one: it toggles the rows it can read, and reports the first address it cannot. -/
theorem exec_drw_spec (x y : RegIdx) (n : RowCount) (s : State) :
    ∃ t, exec (.drw x y n) s = .next t ∧
      t = { s with V := t.V, FB := t.FB, result := if n = 0 ∨ s.I.toNat + n.toNat ≤ 4096 then .ok
                                                   else .err (.addressOutOfRange (max s.I.toNat 4096)) } ∧
      RegsKept [15] s t ∧ MemKept s t ∧
      (∀ X Y, t.pixel X Y ≠ s.pixel X Y ↔ SpriteBit s (s.reg x) (s.reg y) (rowsInMemory s n) X Y) ∧
      (Collision s t → t.reg 15 = 0x01) ∧ (¬ Collision s t → t.reg 15 = 0x00) := by
  obtain ⟨t, ht, hf, hreg, hres, hpix, hset, hclear⟩ := exec_effect (.drw x y n) s
  have hn : n.toNat = 0 ↔ n = 0 := BitVec.toNat_inj (y := 0)
  refine ⟨t, ht, ?_, fun r hr => hreg r (List.ne_of_not_mem_cons hr), fun a => by rw [hf]; rfl, fun X Y => ?_, hset, hclear⟩
  · simp only [hn] at hres
    rw [← hres]
    exact hf
  · rw [hpix]
    constructor
    · rintro ⟨r, c, hrn, hrI, hc, ⟨hX, hY⟩, hbit⟩
      exact ⟨r, lt_rowsInMemory_iff.mpr ⟨hrn, hrI⟩, c, hc, hX, hY, hbit⟩
    · rintro ⟨r, hr, c, hc, hX, hY, hbit⟩
      obtain ⟨hrn, hrI⟩ := lt_rowsInMemory_iff.mp hr
      exact ⟨r, c, hrn, hrI, hc, ⟨hX, hY⟩, hbit⟩

/-- Settles O40: a draw reads all its rows, or those up to the last byte of memory. -/
theorem drawXorsTheWrappedSprite : Obligations.DrawXorsTheWrappedSprite := by
  refine ⟨fun w hw => decode_drw (fieldP_of_mask hw rfl), fun x y n s => ?_⟩
  have hspec := exec_drw_spec x y n s
  refine ⟨fun hfits => ?_, fun hn hpast => ?_⟩
  · rwa [if_pos hfits, rowsInMemory_of_fits hfits] at hspec
  · rwa [if_neg (not_or.mpr ⟨hn, hpast.not_ge⟩), rowsInMemory_past_end hpast] at hspec

end Sys2Proof.Machine
end

section
/-! PROOFS. The keyboard and timer instructions (R146 to R151): how their words decode, what a key skip answers, and what a timer move or the
start of a key wait leaves to the next cycle. -/

namespace Sys2Proof.Machine

/-! ## Their words -/

/-- The words that begin with E are told apart by their low byte (R78). -/
theorem encodes_of_decodeE {b : Word} {f : Word → Instr} (hb : fieldP b = 0xE)
    (hf : ∀ w, fieldKk w = fieldKk b → decodeE w = .ok (f w)) : Encodes 0xF0FF b f := by
  intro w hw
  rw [decode, fieldP_of_mask hw rfl, hb]
  exact hf w (fieldKk_of_mask hw rfl)

/-! ## The key skips -/

/-- What a key skip answers, by the value of `Vx` and the outcome of the query. -/
theorem exec_keySkip_spec {i : Instr} {want : Bool} {x : RegIdx} {s : State} (h : ∃ t, exec i s = .next t ∧ KeyEffect want x s t) :
    (15 < (s.reg x).toNat → exec i s = .next (s.raised (.invalidKey (s.reg x)))) ∧
    (∀ e, (s.reg x).toNat ≤ 15 → s.inputs.keyboardError = some e → exec i s = .next (s.raised (.collaboratorError e))) ∧
    (∀ k : Key, (s.reg x).toNat = k.toNat → s.inputs.keyboardError = none →
      exec i s = .next ((s.skipIf (decide (k ∈ s.inputs.keysDown) == want)).setResult .ok)) := by
  obtain ⟨t, ht, ⟨hgt, rfl⟩ | ⟨hle, e, he, rfl⟩ | ⟨hle, hn, rfl⟩⟩ := h
  · exact ⟨fun _ => ht, fun _ hle => by omega, fun k hk => by have := k.isLt; omega⟩
  · refine ⟨fun hgt => by omega, fun e' _ he' => ?_, fun _ _ hn => (nomatch he.symm.trans hn)⟩
    obtain rfl := Option.some.inj (he.symm.trans he')
    exact ht
  · refine ⟨fun hgt => by omega, fun _ _ he => (nomatch hn.symm.trans he), fun k hk _ => ?_⟩
    have hkey : (s.reg x).setWidth 4 = k := by rw [BitVec.toNat_eq, BitVec.toNat_setWidth, hk, Nat.mod_eq_of_lt k.isLt]
    rw [ht, hkey]

/-- Settles O42: both instructions make the same test, and skip on opposite levels of the key. -/
theorem keySkips : Obligations.KeySkips := by
  refine ⟨encodes_of_decodeE rfl fun w hk => by rw [decodeE, hk]; rfl, encodes_of_decodeE rfl fun w hk => by rw [decodeE, hk]; rfl,
    fun x s => ?_⟩
  obtain ⟨hinvalid, hfails, hskp⟩ := exec_keySkip_spec (exec_effect (.skp x) s)
  obtain ⟨hinvalid', hfails', hsknp⟩ := exec_keySkip_spec (exec_effect (.sknp x) s)
  refine ⟨fun hx => ⟨hinvalid hx, hinvalid' hx⟩, fun e hx he => ⟨hfails e hx he, hfails' e hx he⟩, fun k hk hn hdown => ?_,
    fun k hk hn hup => ?_⟩
  · rw [hskp k hk hn, hsknp k hk hn, decide_eq_true hdown]
    exact ⟨rfl, rfl⟩
  · rw [hskp k hk hn, hsknp k hk hn, decide_eq_false hup]
    exact ⟨rfl, rfl⟩

/-! ## The cycle of a fetched instruction -/

/-- A cycle that fetches an instruction executes it in the state after the advance (R92, R93). -/
theorem step_of_fetches {s : State} {i : Instr} (h : Fetches s i) : step s = exec i s.fetched := by
  obtain ⟨hr, hpc, hd⟩ := h
  rw [Config.memSize] at hpc
  rcases step_of_reachesFetch hr with ⟨hout, -⟩ | ⟨hhalf, -⟩ | ⟨-, hu, -⟩ | ⟨j, ⟨-, -, hj⟩, e⟩
  · omega
  · omega
  · rw [hd] at hu
    cases hu
  · rw [hd] at hj
    cases hj
    exact e

/-! ## The timer moves -/

/-- Settles O43: an instruction executes after the decrement, and the next cycle decrements and sounds what it left (O18, O19). -/
theorem timerMovesInACycle : Obligations.TimerMovesInACycle := by
  refine ⟨encodes_of_decodeF rfl fun w hk => by rw [decodeF, hk]; rfl, encodes_of_decodeF rfl fun w hk => by rw [decodeF, hk]; rfl,
    encodes_of_decodeF rfl fun w hk => by rw [decodeF, hk]; rfl, fun x s => ⟨fun hf => ?_, fun hf => ?_, fun hf => ?_⟩⟩
  · obtain ⟨t, ht, hframe, hx, hkept, hmem⟩ := exec_write_spec (exec_effect (.ldVxDt x) s.fetched)
    refine ⟨t, (step_of_fetches hf).trans ht, hframe, ?_, hkept, hmem⟩
    rw [hx]
    exact decremented_toNat s.DT
  · obtain ⟨t, ht, rfl⟩ := exec_effect (.ldDtVx x) s.fetched
    refine ⟨_, (step_of_fetches hf).trans ht, rfl, fun u hr hu => ?_⟩
    obtain ⟨-, hDT, -⟩ := timersCountRunningCycles _ u hu
    exact hDT hr
  · obtain ⟨t, ht, rfl⟩ := exec_effect (.ldStVx x) s.fetched
    refine ⟨_, (step_of_fetches hf).trans ht, rfl, rfl, fun u hr hu => ?_⟩
    obtain ⟨hrunning, -⟩ := hr
    exact (toneFollowsSoundTimer _ u hu).1 hrunning

/-! ## The key wait -/

theorem exec_ldVxK (x : RegIdx) (s : State) : exec (.ldVxK x) s = .next { s with mode := .awaitingKey x, result := .ok } := rfl

/-- Settles O45: the cycle after `Fx0A` is a waiting cycle (O16), which leaves `PC`, the timers and the tone as its start has them. -/
theorem keyWaitTakesTheNextCyclesKey : Obligations.KeyWaitTakesTheNextCyclesKey := by
  refine ⟨encodes_of_decodeF rfl fun w hk => by rw [decodeF, hk]; rfl, exec_ldVxK, fun x s hf => ?_⟩
  obtain ⟨-, hidle, htakes⟩ := waitingCycleOnlyLooksForAKey { s.fetched with mode := .awaitingKey x } x rfl
  refine ⟨_, (step_of_fetches hf).trans (exec_ldVxK x s.fetched), rfl, hidle, fun k ks hn hk => ?_⟩
  obtain ⟨u, hu, hframe, hx, hkept⟩ := htakes k ks hn hk
  refine ⟨u, hu, hframe, hx, hkept, ?_, ?_, ?_, ?_⟩ <;> rw [hframe] <;> rfl

end Sys2Proof.Machine
end

section
/-! PROOFS. The errors of the core (R154 to R168): what makes an instruction or a wait end in one, and what it leaves unchanged. -/

namespace Sys2Proof.Machine

/-! ## The error of an instruction -/

/-- The errors that executing an instruction can report, each with its cause (R155, the rows of codes 1, 2 and 4 to 8). -/
inductive Raises (s : State) : Instr → CoreError → Prop
  | stackOverflow {nnn} (full : 16 ≤ s.stack.length) : Raises s (.call nnn) .stackOverflow
  | emptyStack (empty : s.stack = []) : Raises s .ret .emptyStack
  | queryFailed {i x c} (isKeySkip : i = .skp x ∨ i = .sknp x) (fails : s.inputs.keyboardError = some c) :
      Raises s i (.collaboratorError c)
  | addressOutOfRange {i x a} (accesses : i = .ldBVx x ∨ i = .ldMemVx x ∨ i = .ldVxMem x ∨ ∃ y n, i = .drw x y n)
      (outside : 4096 ≤ a) : Raises s i (.addressOutOfRange a)
  | protectedWrite {i x} (stores : i = .ldBVx x ∨ i = .ldMemVx x) (low : s.I.toNat < 0x200) :
      Raises s i (.protectedWrite s.I.toNat)
  | invalidGlyph {x} (above : 15 < (s.reg x).toNat) : Raises s (.ldFVx x) (.invalidGlyph (s.reg x))
  | invalidKey {i x} (isKeySkip : i = .skp x ∨ i = .sknp x) (above : 15 < (s.reg x).toNat) :
      Raises s i (.invalidKey (s.reg x))

/-- Beside the result, only the registers, memory and the framebuffer differ: what an instruction can have changed when it fails part
of the way (R64, R144). -/
def OnlyDataDiffers (s t : State) : Prop := t = { s with V := t.V, mem := t.mem, FB := t.FB, result := t.result }

/-- An access that can fail at its range only reports the first address outside memory (R161). -/
theorem eq_addressOutOfRange_of_err {p : Prop} [Decidable p] {a : Nat} {e : CoreError}
    (h : CycleResult.err e = if p then .ok else .err (.addressOutOfRange (max a 4096))) : e = .addressOutOfRange (max a 4096) := by
  split at h
  · cases h
  · exact CycleResult.err.inj h

theorem raises_of_keyEffect {i : Instr} {want : Bool} {x : RegIdx} {s t : State} {e : CoreError} (hi : i = .skp x ∨ i = .sknp x)
    (h : KeyEffect want x s t) (he : t.result = .err e) : Raises s i e ∧ OnlyDataDiffers s t := by
  rcases h with ⟨above, rfl⟩ | ⟨-, c, fails, rfl⟩ | ⟨-, -, rfl⟩ <;> cases he
  · exact ⟨.invalidKey hi above, rfl⟩
  · exact ⟨.queryFailed hi fails, rfl⟩

theorem raises_of_storeEffect {i : Instr} {x : RegIdx} {bytes : List Byte} {s t : State} {e : CoreError}
    (hi : i = .ldBVx x ∨ i = .ldMemVx x) (h : StoreEffect bytes s t) (he : t.result = .err e) :
    Raises s i e ∧ OnlyDataDiffers s t := by
  obtain ⟨frame, hr, -⟩ := h
  refine ⟨?_, frame.trans (by rw [frame])⟩
  rw [he] at hr
  split at hr
  case isTrue low =>
    cases hr
    exact .protectedWrite hi low
  case isFalse =>
    obtain rfl := eq_addressOutOfRange_of_err hr
    exact .addressOutOfRange (hi.imp_right .inl) (le_max_right ..)

/-- Everything an instruction that ends in an error can do. -/
theorem raises_of_exec {i : Instr} {s t : State} {e : CoreError} (h : exec i s = .next t) (he : t.result = .err e) :
    Raises s i e ∧ OnlyDataDiffers s t := by
  have effect := effect_of_exec h
  cases i with
  | ret =>
    rcases effect with ⟨empty, rfl⟩ | ⟨below, top, -, rfl⟩ <;> cases he
    exact ⟨.emptyStack empty, rfl⟩
  | call nnn =>
    rcases effect with ⟨full, rfl⟩ | ⟨-, rfl⟩ <;> cases he
    exact ⟨.stackOverflow full, rfl⟩
  | ldFVx x =>
    rcases effect with ⟨above, rfl⟩ | ⟨-, rfl⟩ <;> cases he
    exact ⟨.invalidGlyph above, rfl⟩
  | skp x => exact raises_of_keyEffect (.inl rfl) effect he
  | sknp x => exact raises_of_keyEffect (.inr rfl) effect he
  | ldBVx x => exact raises_of_storeEffect (.inl rfl) effect he
  | ldMemVx x => exact raises_of_storeEffect (.inr rfl) effect he
  | ldVxMem x =>
    obtain ⟨frame, hr, -⟩ := effect
    obtain rfl := eq_addressOutOfRange_of_err (he.symm.trans hr)
    exact ⟨.addressOutOfRange (.inr (.inr (.inl rfl))) (le_max_right ..), frame.trans (by rw [frame])⟩
  | drw x y n =>
    obtain ⟨frame, -, hr, -⟩ := effect
    obtain rfl := eq_addressOutOfRange_of_err (he.symm.trans hr)
    exact ⟨.addressOutOfRange (.inr (.inr (.inr ⟨y, n, rfl⟩))) (le_max_right ..), frame.trans (by rw [frame])⟩
  | _ =>
    subst effect
    cases he

/-! ## The errors of a cycle before its instruction -/

/-- A wait ends in an error only when its query fails, and then changes nothing (R88, R160). -/
theorem waitForKey_err {r : RegIdx} {s : State} {e : CoreError} (h : (waitForKey r s.begun).result = .err e) :
    ∃ c, s.nextInputs.keyboardError = some c ∧ e = .collaboratorError c ∧ waitForKey r s.begun = s.begun.raised e := by
  rcases waitForKey_eq r s.begun with ⟨c, fails, hw⟩ | ⟨-, -, hw⟩ | ⟨k, ks, -, -, hw⟩ <;> rw [hw] at h <;> cases h
  exact ⟨c, fails, rfl, hw⟩

theorem not_reachesFetch_of_audioError {s : State} {c : CollabError} (h : s.nextInputs.audioError = some c) : ¬ ReachesFetch s :=
  fun ⟨_, ha⟩ => nomatch h.symm.trans ha

/-- Settles O15: of the cases of a step, this is the only `Running` one without a fetch. -/
theorem audioFailureEndsTheCycle : Obligations.AudioFailureEndsTheCycle := by
  intro s e hm ha
  have noFetch := not_reachesFetch_of_audioError ha
  rcases step_cases s with ⟨r, hw, -⟩ | ⟨c, -, hc, hstep⟩ | ⟨hr, -⟩ | ⟨hr, -⟩ | ⟨hr, -⟩ | ⟨i, ⟨hr, -⟩, -⟩
  · exact nomatch hm.symm.trans hw
  · obtain rfl := Option.some.inj (ha.symm.trans hc)
    exact hstep
  all_goals exact absurd hr noFetch

/-! ## Over all cycles -/

/-- Settles O51: a cycle fails in its wait, its audio call, its fetch or its decoding, or in the instruction, for a cause of `Raises`. -/
theorem errorsHaveTheirCauses : Obligations.ErrorsHaveTheirCauses := by
  intro s t e hstep he
  rcases step_cases s with ⟨r, hm, eq⟩ | ⟨c, hm, ha, eq⟩ | ⟨hr, hpc, eq⟩ | ⟨hr, hpc, eq⟩ | ⟨hr, -, hd, eq⟩ | ⟨i, hf, eq⟩ <;>
    rw [eq] at hstep
  · cases hstep
    obtain ⟨c, fails, rfl, -⟩ := waitForKey_err he
    exact .inr (.inr (.inr (.inr (.inl ⟨c, rfl, fails, .inl ⟨r, hm⟩⟩))))
  · cases hstep
    cases he
    exact .inr (.inr (.inr (.inl ⟨c, rfl, hm, ha⟩)))
  · cases hstep
    cases he
    exact .inr (.inr (.inr (.inr (.inr (.inl ⟨_, rfl, hpc, hr, .inl (by omega)⟩)))))
  · cases hstep
    cases he
    exact .inr (.inr (.inr (.inr (.inr (.inl ⟨_, rfl, le_rfl, hr, .inl (by omega)⟩)))))
  · cases hstep
    cases he
    exact .inr (.inr (.inl ⟨rfl, hr, hd⟩))
  · obtain ⟨raises, -⟩ := raises_of_exec hstep he
    have fetches {j : Instr} (hij : i = j) : Fetches s j := hij ▸ hf
    cases raises with
    | @stackOverflow nnn full => exact .inl ⟨rfl, nnn, hf, full⟩
    | emptyStack empty => exact .inr (.inl ⟨rfl, hf, empty⟩)
    | @queryFailed _ x c isKeySkip fails =>
      refine .inr (.inr (.inr (.inr (.inl ⟨c, rfl, fails, .inr ⟨x, ?_⟩⟩))))
      exact isKeySkip.imp fetches fetches
    | @addressOutOfRange _ x a accesses outside =>
      refine .inr (.inr (.inr (.inr (.inr (.inl ⟨a, rfl, outside, hf.1, .inr ⟨x, ?_⟩⟩)))))
      exact accesses.imp fetches (.imp fetches (.imp fetches fun ⟨y, n, hi⟩ => ⟨y, n, fetches hi⟩))
    | @protectedWrite _ x stores low =>
      exact .inr (.inr (.inr (.inr (.inr (.inr (.inl ⟨rfl, low, x, stores.imp fetches fetches⟩))))))
    | @invalidGlyph x above => exact .inr (.inr (.inr (.inr (.inr (.inr (.inr (.inl ⟨x, rfl, above, hf⟩)))))))
    | @invalidKey _ x isKeySkip above =>
      exact .inr (.inr (.inr (.inr (.inr (.inr (.inr (.inr ⟨x, rfl, above, isKeySkip.imp fetches fetches⟩)))))))

/-- Settles O52: an error of the wait, the audio call or the fetch comes before the advance, an unmatched word and an error of an
instruction after it, and no instruction that fails has changed `PC` again. -/
theorem errorsArePrecise : Obligations.ErrorsArePrecise := by
  intro s t e hstep he
  rcases step_cases s with ⟨r, hm, eq⟩ | ⟨c, -, ha, eq⟩ | ⟨-, hpc, eq⟩ | ⟨-, hpc, eq⟩ | ⟨hr, hpc, -, eq⟩ | ⟨i, hf, eq⟩ <;>
    rw [eq] at hstep
  · cases hstep
    obtain ⟨c, -, -, hw⟩ := waitForKey_err he
    rw [hw]
    exact ⟨rfl, rfl, rfl, rfl, fun hr => absurd hr (not_reachesFetch_of_waiting hm), fun _ => rfl⟩
  · cases hstep
    exact ⟨rfl, rfl, rfl, rfl, fun hr => absurd hr (not_reachesFetch_of_audioError ha), fun _ => rfl⟩
  · cases hstep
    exact ⟨rfl, rfl, rfl, rfl, fun _ hlt => by omega, fun _ => rfl⟩
  · cases hstep
    exact ⟨rfl, rfl, rfl, rfl, fun _ hlt => by omega, fun _ => rfl⟩
  · cases hstep
    exact ⟨rfl, rfl, rfl, rfl, fun _ _ => rfl, fun before => absurd before (not_or.mpr ⟨not_not.mpr hr, hpc.not_ge⟩)⟩
  · obtain ⟨-, frame⟩ := raises_of_exec hstep he
    rw [frame]
    exact ⟨rfl, rfl, rfl, rfl, fun _ _ => rfl, fun before => absurd before (not_or.mpr ⟨not_not.mpr hf.1, hf.pc_lt.not_ge⟩)⟩

end Sys2Proof.Machine
end

section
/-! PROOFS. The first cycle with no program loaded (R180). -/

namespace Sys2Proof.Machine

/-- No font byte stands at 0x200, so the word there is 0 after construction, whatever inputs are listed (R45, R178). -/
theorem wordAtPC_construct (f : Config.Font) (u : List Inputs) :
    ({ State.construct f with upcoming := u } : State).wordAtPC = 0x0000 := by
  have hi : resetByte f 0x200 = 0 := resetByte_outside f (by omega)
  have lo : resetByte f 0x201 = 0 := resetByte_outside f (by omega)
  calc ({ State.construct f with upcoming := u } : State).wordAtPC
      = wordOfBytes (resetByte f 0x200) (resetByte f 0x201) := rfl
    _ = 0x0000 := by rw [hi, lo]; rfl

theorem decode_zero : decode 0x0000 = .error (.unmatched 0x0000) := (decode0_unmatched_iff 0x0000).mpr (by decide)

/-- The first cycle after construction leaves the timers at 0, where they stop, and signals silence (R29, R89). -/
theorem fetched_construct (f : Config.Font) (u : List Inputs) :
    ({ State.construct f with upcoming := u } : State).fetched =
      { ({ State.construct f with upcoming := u } : State).begun with PC := 0x202, tone := some .stopBeep } := rfl

/-- Settles O3: the cycle comes to the fetch at 0x200, and the word 0x0000 it reads there is unmatched. -/
theorem emptyMachineRaisesUnhandledZero : Obligations.EmptyMachineRaisesUnhandledZero := by
  intro f u hr
  have hw := wordAtPC_construct f u
  obtain ⟨-, -, unmatched⟩ := fetchErrorAndUnmatchedWord _ hr
  have hstep := unmatched (show 0x200 + 1 < 4096 by decide) (by rw [hw, decode_zero])
  rw [hw, fetched_construct] at hstep
  exact ⟨_, hstep, rfl, rfl⟩

end Sys2Proof.Machine
end

section
/-! PROOFS. The decoder and the encoder are inverse to each other, and the instruction words are those of the opcode table (R72 to R79): a
word is told by its prefix, by `n` or `kk` where the prefix dispatches further, and by its operand fields. -/

namespace Sys2Proof.Machine

/-! ## Decoding an encoded instruction -/

/-- Settles O7, one shape of word at a time: the prefix of the assembled word, and its `n` or `kk`, select the decoder's case, and the other
fields are the operands. -/
theorem decodeEncodeGivesInstr : Obligations.DecodeEncodeGivesInstr := by
  intro i
  cases i with
  | cls | ret => rfl
  | jp nnn | call nnn | ldI nnn | jpV0 nnn =>
    simp only [encode, decode, fieldP_pnnn, fieldNnn_pnnn]; rfl
  | seImm x kk | sneImm x kk | ldImm x kk | addImm x kk | rnd x kk =>
    simp only [encode, decode, fieldP_pxkk, fieldX_pxkk, fieldKk_pxkk]; rfl
  | seReg x y | sneReg x y | drw x y n =>
    simp only [encode, decode, fieldP_pxyn, fieldX_pxyn, fieldY_pxyn, fieldN_pxyn]; rfl
  | ldReg x y | orReg x y | andReg x y | xorReg x y | addReg x y | subReg x y | shr x y | subnReg x y | shl x y =>
    simp only [encode, decode, decode8, fieldP_pxyn, fieldX_pxyn, fieldY_pxyn, fieldN_pxyn]; rfl
  | skp x | sknp x =>
    simp only [encode, decode, decodeE, fieldP_pxkk, fieldX_pxkk, fieldKk_pxkk]; rfl
  | ldVxDt x | ldVxK x | ldDtVx x | ldStVx x | addIVx x | ldFVx x | ldBVx x | ldMemVx x | ldVxMem x =>
    simp only [encode, decode, decodeF, fieldP_pxkk, fieldX_pxkk, fieldKk_pxkk]; rfl

/-- Settles O11: the decoder runs on the eight words. -/
theorem decodeExamplesOfTheSpec : Obligations.DecodeExamplesOfTheSpec :=
  ⟨rfl, rfl, rfl, rfl, rfl, rfl, rfl, rfl⟩

/-! ## Encoding what a word decodes to -/

theorem pnnn_of_fieldP {w : Word} {p : BitVec 4} (hp : fieldP w = p) : p ++ fieldNnn w = w := by
  rw [← hp]
  exact (word_eq_pnnn w).symm

theorem pxkk_of_fieldP {w : Word} {p : BitVec 4} (hp : fieldP w = p) : p ++ fieldX w ++ fieldKk w = w := by
  rw [← hp]
  exact (word_eq_pxkk w).symm

theorem px_kk_of_fields {w : Word} {p : BitVec 4} {kk : Byte} (hp : fieldP w = p) (hkk : fieldKk w = kk) : p ++ fieldX w ++ kk = w := by
  rw [← hkk]
  exact pxkk_of_fieldP hp

theorem pxy_n_of_fields {w : Word} {p n : BitVec 4} (hp : fieldP w = p) (hn : fieldN w = n) :
    p ++ fieldX w ++ fieldY w ++ n = w := by
  rw [← hp, ← hn]
  exact (word_eq_pxyn w).symm

theorem encode_of_decode0 {w : Word} {i : Instr} (h : decode0 w = .ok i) : encode i = w := by
  unfold decode0 at h
  split at h
  case isTrue hcls => cases h; exact hcls.symm
  case isFalse =>
    split at h
    case isTrue hret => cases h; exact hret.symm
    case isFalse => cases h

theorem encode_of_decode8 {w : Word} {i : Instr} (hp : fieldP w = 0x8) (h : decode8 w = .ok i) : encode i = w := by
  unfold decode8 at h
  split at h <;> cases h
  all_goals next hk => exact pxy_n_of_fields hp (BitVec.eq_of_toNat_eq hk)

theorem encode_of_decodeE {w : Word} {i : Instr} (hp : fieldP w = 0xE) (h : decodeE w = .ok i) : encode i = w := by
  unfold decodeE at h
  split at h <;> cases h
  all_goals next hk => exact px_kk_of_fields hp (BitVec.eq_of_toNat_eq hk)

theorem encode_of_decodeF {w : Word} {i : Instr} (hp : fieldP w = 0xF) (h : decodeF w = .ok i) : encode i = w := by
  unfold decodeF at h
  split at h <;> cases h
  all_goals next hk => exact px_kk_of_fields hp (BitVec.eq_of_toNat_eq hk)

/-- Settles O8: each case of the decoder fixes the prefix (and `n` where it tests it), and takes its operands from the other
fields of the word. -/
theorem encodeDecodeGivesWord : Obligations.EncodeDecodeGivesWord := by
  intro w i h
  unfold decode at h
  split at h
  case h_1 => exact encode_of_decode0 h
  case h_9 prefix8 => exact encode_of_decode8 (BitVec.eq_of_toNat_eq prefix8) h
  case h_15 prefixE => exact encode_of_decodeE (BitVec.eq_of_toNat_eq prefixE) h
  case h_16 prefixF => exact encode_of_decodeF (BitVec.eq_of_toNat_eq prefixF) h
  case h_17 => cases h
  -- prefixes 1, 2, A and B: the operand is `nnn`
  case h_2 hp | h_3 hp | h_11 hp | h_12 hp =>
    cases h
    exact pnnn_of_fieldP (BitVec.eq_of_toNat_eq hp)
  -- prefixes 3, 4, 6, 7 and C: the operands are `x` and `kk`
  case h_4 hp | h_5 hp | h_7 hp | h_8 hp | h_13 hp =>
    cases h
    exact pxkk_of_fieldP (BitVec.eq_of_toNat_eq hp)
  -- prefixes 5 and 9: `n` must be 0
  case h_6 hp | h_10 hp =>
    split at h
    case isTrue hn => cases h; exact pxy_n_of_fields (BitVec.eq_of_toNat_eq hp) hn
    case isFalse => cases h
  case h_14 prefixD =>
    cases h
    exact pxy_n_of_fields (BitVec.eq_of_toNat_eq prefixD) rfl

/-! ## The rows of the opcode table -/

/-- One instruction of each constructor, in the order of the opcode table. -/
def oneOfEach : List Instr :=
  [.cls, .ret, .jp 0, .call 0, .seImm 0 0, .sneImm 0 0, .seReg 0 0, .ldImm 0 0, .addImm 0 0, .ldReg 0 0, .orReg 0 0,
    .andReg 0 0, .xorReg 0 0, .addReg 0 0, .subReg 0 0, .shr 0 0, .subnReg 0 0, .shl 0 0, .sneReg 0 0, .ldI 0, .jpV0 0,
    .rnd 0 0, .drw 0 0 0, .skp 0, .sknp 0, .ldVxDt 0, .ldVxK 0, .ldDtVx 0, .ldStVx 0, .addIVx 0, .ldFVx 0, .ldBVx 0,
    .ldMemVx 0, .ldVxMem 0]

/-- Every row of the table is an instruction's. -/
theorem opcodeRows_eq_map_row : opcodeRows = oneOfEach.map Instr.row := rfl

/-- Every instruction's row is in the table. -/
theorem row_mem_opcodeRows (i : Instr) : i.row ∈ opcodeRows := by
  cases i <;> simp only [Instr.row] <;> decide

/-- RET has no operand: its mask is full, and one word encodes it. -/
theorem encodes_ret : Encodes 0xFFFF 0x00EE (fun _ => .ret) := by
  obtain ⟨h, -⟩ := returnPopsIntoPC
  exact h

/-- Every word that agrees with the row of an instruction is an instruction word: the row's mask fixes the fields that the decoder looks at. -/
theorem decodes_of_row_accepts {i : Instr} {w : Word} (h : i.row.Accepts w) : ∃ j, decode w = .ok j := by
  cases i <;> simp only [Instr.row, OpcodeRow.Accepts] at h
  case cls => exact ⟨_, encodes_cls w h⟩
  case ret => exact ⟨_, encodes_ret w h⟩
  case jp => exact ⟨_, decode_jp (fieldP_of_mask h rfl)⟩
  case call => exact ⟨_, decode_call (fieldP_of_mask h rfl)⟩
  case seImm => exact ⟨_, decode_seImm (fieldP_of_mask h rfl)⟩
  case sneImm => exact ⟨_, decode_sneImm (fieldP_of_mask h rfl)⟩
  case seReg => exact ⟨_, decode_seReg (fieldP_of_mask h rfl) (fieldN_of_mask h rfl)⟩
  case ldImm => exact ⟨_, decode_ldImm (fieldP_of_mask h rfl)⟩
  case addImm => exact ⟨_, decode_addImm (fieldP_of_mask h rfl)⟩
  case ldReg | orReg | andReg | xorReg | addReg | subReg | shr | subnReg | shl =>
    exact ⟨_, encodes_of_decode8 rfl (fun w hn => by rw [decode8, hn]; rfl) w h⟩
  case sneReg => exact ⟨_, decode_sneReg (fieldP_of_mask h rfl) (fieldN_of_mask h rfl)⟩
  case ldI => exact ⟨_, decode_ldI (fieldP_of_mask h rfl)⟩
  case jpV0 => exact ⟨_, decode_jpV0 (fieldP_of_mask h rfl)⟩
  case rnd => exact ⟨_, decode_rnd (fieldP_of_mask h rfl)⟩
  case drw => exact ⟨_, decode_drw (fieldP_of_mask h rfl)⟩
  case skp | sknp => exact ⟨_, encodes_of_decodeE rfl (fun w hk => by rw [decodeE, hk]; rfl) w h⟩
  case ldVxDt | ldVxK | ldDtVx | ldStVx | addIVx | ldFVx | ldBVx | ldMemVx | ldVxMem =>
    exact ⟨_, encodes_of_decodeF rfl (fun w hk => by rw [decodeF, hk]; rfl) w h⟩

open Laws in
/-- The row lemmas of the single instructions, put together. -/
theorem row_accepts_encode : (i : Instr) → i.row.Accepts (encode i)
  | .cls => EncodesInRow.cls
  | .ret => EncodesInRow.ret
  | .jp nnn => EncodesInRow.jp nnn
  | .call nnn => EncodesInRow.call nnn
  | .seImm x kk => EncodesInRow.seImm x kk
  | .sneImm x kk => EncodesInRow.sneImm x kk
  | .seReg x y => EncodesInRow.seReg x y
  | .ldImm x kk => EncodesInRow.ldImm x kk
  | .addImm x kk => EncodesInRow.addImm x kk
  | .ldReg x y => EncodesInRow.ldReg x y
  | .orReg x y => EncodesInRow.orReg x y
  | .andReg x y => EncodesInRow.andReg x y
  | .xorReg x y => EncodesInRow.xorReg x y
  | .addReg x y => EncodesInRow.addReg x y
  | .subReg x y => EncodesInRow.subReg x y
  | .shr x y => EncodesInRow.shr x y
  | .subnReg x y => EncodesInRow.subnReg x y
  | .shl x y => EncodesInRow.shl x y
  | .sneReg x y => EncodesInRow.sneReg x y
  | .ldI nnn => EncodesInRow.ldI nnn
  | .jpV0 nnn => EncodesInRow.jpV0 nnn
  | .rnd x kk => EncodesInRow.rnd x kk
  | .drw x y n => EncodesInRow.drw x y n
  | .skp x => EncodesInRow.skp x
  | .sknp x => EncodesInRow.sknp x
  | .ldVxDt x => EncodesInRow.ldVxDt x
  | .ldVxK x => EncodesInRow.ldVxK x
  | .ldDtVx x => EncodesInRow.ldDtVx x
  | .ldStVx x => EncodesInRow.ldStVx x
  | .addIVx x => EncodesInRow.addIVx x
  | .ldFVx x => EncodesInRow.ldFVx x
  | .ldBVx x => EncodesInRow.ldBVx x
  | .ldMemVx x => EncodesInRow.ldMemVx x
  | .ldVxMem x => EncodesInRow.ldVxMem x

/-- Settles O10: a decoded word is the encoding of its instruction (O8), which agrees with the instruction's row. -/
theorem decodedWordsAreTheTablesWords : Obligations.DecodedWordsAreTheTablesWords := by
  have accepts {w : Word} {i : Instr} (h : decode w = .ok i) : i.row.Accepts w := by
    rw [← encodeDecodeGivesWord w i h]
    exact row_accepts_encode i
  refine ⟨fun w => ⟨?_, ?_⟩, fun w i h => accepts h⟩
  · rintro ⟨i, h⟩
    exact ⟨i.row, row_mem_opcodeRows i, accepts h⟩
  · rintro ⟨r, hr, h⟩
    rw [opcodeRows_eq_map_row] at hr
    obtain ⟨i, -, rfl⟩ := List.mem_map.mp hr
    exact decodes_of_row_accepts h

end Sys2Proof.Machine
end

section
/-! PROOFS. A return after a call, two draws of one sprite, and the writers of the flag register. -/

namespace Sys2Proof.Machine

/-! ## Call and return -/

/-- Settles O23: the call leaves its return address on top of the stack (O21), and the return pops it (O22). -/
theorem returnUndoesCall : Obligations.ReturnUndoesCall := by
  intro nnn s u hroom
  obtain ⟨-, hcall⟩ := callPushesReturnAddress
  obtain ⟨-, hret⟩ := returnPopsIntoPC
  obtain ⟨t, ht, hframe, -⟩ := (hcall nnn s).1 hroom
  refine ⟨t, ht, fun hu => ?_⟩
  have hstack : u.stack = s.stack ++ [s.PC] := by rw [hu, hframe]
  exact ⟨_, (hret u).1 s.stack s.PC hstack, rfl, rfl, rfl⟩

/-! ## Drawing twice -/

/-- Settles O41: the first draw keeps `I`, memory and the two coordinates, so the second toggles the same pixels. This holds also for a sprite
that runs past memory, of which both draws reach the same rows. -/
theorem drawingTwiceRestoresPixels : Obligations.DrawingTwiceRestoresPixels := by
  intro x y n s hx hy _
  obtain ⟨t, ht, hframe, hregs, hmem, hfirst, -⟩ := exec_drw_spec x y n s
  obtain ⟨u, hu, -, -, -, hsecond, -⟩ := exec_drw_spec x y n t
  refine ⟨t, u, ht, hu, fun X Y => ?_⟩
  have hI : t.I = s.I := by rw [hframe]
  have hsame : SpriteBit t (t.reg x) (t.reg y) (rowsInMemory t n) X Y ↔ SpriteBit s (s.reg x) (s.reg y) (rowsInMemory s n) X Y := by
    rw [hregs x (by simpa using hx), hregs y (by simpa using hy)]
    simp only [SpriteBit, rowsInMemory, hI, hmem _]
  have htoggle : u.pixel X Y ≠ t.pixel X Y ↔ t.pixel X Y ≠ s.pixel X Y := by
    rw [hfirst, hsecond, hsame]
  revert htoggle
  cases u.pixel X Y <;> cases t.pixel X Y <;> cases s.pixel X Y <;> decide

/-! ## The flag register -/

/-- The instruction can write `VF`: as a flag, or as its ordinary destination (R22). -/
def WritesFlag (i : Instr) : Prop :=
  (∃ x y, i = .addReg x y ∨ i = .subReg x y ∨ i = .shr x y ∨ i = .subnReg x y ∨ i = .shl x y) ∨
  (∃ x y n, i = .drw x y n) ∨
  (∃ kk, i = .ldImm 15 kk ∨ i = .addImm 15 kk ∨ i = .rnd 15 kk) ∨
  (∃ y, i = .ldReg 15 y ∨ i = .orReg 15 y ∨ i = .andReg 15 y ∨ i = .xorReg 15 y) ∨
  i = .ldVxDt 15 ∨ i = .ldVxMem 15

/-- A register write changes `VF` only when `VF` is its destination. -/
theorem vf_kept_or_destination (s : State) (x : RegIdx) (b : Byte) :
    ((s.setReg x b).setResult .ok).reg vf = s.reg vf ∨ x = 15 := by
  by_cases hx : x = 15
  · exact .inr hx
  · exact .inl (State.reg_setReg_ne s b (Ne.symm hx))

/-- An effect that changes `VF` is the effect of one of its writers (R22). -/
theorem effect_flag {i : Instr} {s t : State} (h : Effect i s t) : t.reg vf = s.reg vf ∨ WritesFlag i := by
  cases i with
  | addReg x y | subReg x y | shr x y | subnReg x y | shl x y | drw x y n => exact .inr (by simp [WritesFlag])
  | ldImm x _ | addImm x _ | rnd x _ | ldReg x _ | orReg x _ | andReg x _ | xorReg x _ | ldVxDt x =>
    subst h
    exact (vf_kept_or_destination s x _).imp_right (by rintro rfl; simp [WritesFlag])
  | ldVxMem x =>
    obtain ⟨-, -, hreg⟩ := h
    by_cases hx : x = 15
    · exact .inr (by simp [WritesFlag, hx])
    · have hvf : ¬ (vf.toNat ≤ x.toNat ∧ s.I.toNat + vf.toNat < 4096) :=
        fun ⟨hle, _⟩ => hx (BitVec.eq_of_toNat_eq (Nat.le_antisymm (Nat.le_of_lt_succ x.isLt) hle))
      exact .inl ((hreg vf).trans (if_neg hvf))
  | ldBVx x | ldMemVx x =>
    obtain ⟨hframe, -⟩ := h
    rw [hframe]
    exact .inl rfl
  | ret => rcases h with ⟨-, rfl⟩ | ⟨_, _, -, rfl⟩ <;> exact .inl rfl
  | call | ldFVx => rcases h with ⟨-, rfl⟩ | ⟨-, rfl⟩ <;> exact .inl rfl
  | skp x | sknp x => rcases h with ⟨-, rfl⟩ | ⟨-, _, -, rfl⟩ | ⟨-, -, rfl⟩ <;> exact .inl rfl
  | _ => subst h; exact .inl rfl

/-- Settles O46, by the effect of the instruction. -/
theorem flagRegisterWriters : Obligations.FlagRegisterWriters :=
  fun _ _ _ h hne => (effect_flag (effect_of_exec h)).resolve_left hne

end Sys2Proof.Machine
end

section
/-! PROOFS. The instruction that a cycle executes, the word that `withFetchWord` places, the timer moves, and the invariant after
construction. -/

namespace Sys2Proof.Machine

/-! ## The executed instruction -/

/-- Settles O12, by everything a cycle that comes to a fetch can do. -/
theorem stepRunsTheDecodedInstruction : Obligations.StepRunsTheDecodedInstruction := fun _ _ => step_of_fetches

/-! ## The placed word (log entry 14) -/

theorem tableWord_toNat (w : Word) : tableWord 16 w.toNat = w := by
  rw [tableWord, Nat.mod_eq_of_lt w.isLt, BitVec.ofNat_toNat, BitVec.setWidth_eq]

theorem withAudioOk_spec (s : State) :
    s.withAudioOk.mode = s.mode ∧ s.withAudioOk.nextInputs.audioError = none ∧ s.withAudioOk.V = s.V := by
  unfold State.withAudioOk
  cases s.upcoming with
  | nil => exact ⟨rfl, rfl, rfl⟩
  | cons => exact ⟨rfl, rfl, rfl⟩

/-- The state in which `placeWord` stores its word: `Running`, with an audio call that succeeds and a `PC` that can be fetched from. -/
def State.fetchReady (s : State) : State :=
  if (s.setMode .running).withAudioOk.PC.toNat + 1 < Config.memSize then (s.setMode .running).withAudioOk
  else (s.setMode .running).withAudioOk.setPC 0x200

theorem fetchReady_spec (s : State) :
    ReachesFetch s.fetchReady ∧ s.fetchReady.PC.toNat + 1 < Config.memSize ∧ s.fetchReady.V = s.V := by
  obtain ⟨hmode, haudio, hV⟩ := withAudioOk_spec (s.setMode .running)
  unfold State.fetchReady
  split
  case isTrue hpc => exact ⟨⟨hmode, haudio⟩, hpc, hV⟩
  case isFalse => exact ⟨⟨hmode, haudio⟩, show 0x200 + 1 < 4096 by decide, hV⟩

/-- The state with a word stored at its `PC`, high byte first. -/
def State.withWordAtPC (s : State) (w : Word) : State :=
  (s.setByte s.PC.toNat (highByte w)).setByte (s.PC.toNat + 1) (lowByte w)

@[simp] theorem withWordAtPC_reg (s : State) (w : Word) (r : RegIdx) : (s.withWordAtPC w).reg r = s.reg r := rfl

theorem wordAtPC_withWordAtPC (s : State) (w : Word) : (s.withWordAtPC w).wordAtPC = w := by
  simp [State.wordAtPC, State.withWordAtPC, State.byteAt_setByte]

theorem fetches_withWordAtPC {s : State} {w : Word} {i : Instr} (hr : ReachesFetch s) (hpc : s.PC.toNat + 1 < Config.memSize)
    (hd : decode w = .ok i) : Fetches (s.withWordAtPC w) i :=
  ⟨hr, hpc, by rw [wordAtPC_withWordAtPC, hd]⟩

theorem placeWord_eq (s : State) (w : Word) : s.placeWord w = s.fetchReady.withWordAtPC w := rfl

/-- Settles O13: the placed word is the word at `PC` of a state that comes to a fetch, and no register is written on the way. -/
theorem placedWordIsExecutedNext : Obligations.PlacedWordIsExecutedNext := by
  intro s w i hd
  obtain ⟨hreach, hpc, hV⟩ := fetchReady_spec s
  have hfetches := fetches_withWordAtPC hreach hpc hd
  rw [State.withFetchWord, tableWord_toNat, placeWord_eq]
  refine ⟨hfetches, step_of_fetches hfetches, fun r => ?_⟩
  rw [withWordAtPC_reg, State.reg, hV, State.reg]

/-! ## The timer moves -/

/-- Settles O44: each move is one write of a register or of a timer. -/
theorem timerMovesComplete : Obligations.TimerMovesComplete := by
  refine fun x s => ⟨?_, ?_, ?_⟩
  · exact exec_write_spec (exec_effect (.ldVxDt x) s)
  · obtain ⟨t, ht, rfl⟩ := exec_effect (.ldDtVx x) s
    exact ⟨_, ht, rfl, rfl, fun _ _ => rfl, fun _ => rfl⟩
  · obtain ⟨t, ht, rfl⟩ := exec_effect (.ldStVx x) s
    exact ⟨_, ht, rfl, rfl, fun _ _ => rfl, fun _ => rfl⟩

/-! ## The invariant after construction -/

/-- The base case of the invariant: the stack is empty, `PC` is 0x200, and memory lists nothing. -/
theorem inv_construct (f : Config.Font) : (State.construct f).Inv where
  stackBound := Nat.zero_le _
  stackEntries := nofun
  pcBound := show 0x200 ≤ 0x10FE by decide
  lowRegion a _ := State.byteAt_construct f a
  memForm := rfl

/-- Settles O54: `State.reset` is the construction with the open base and the default font. -/
theorem resetMeetsTheInvariant : Obligations.ResetMeetsTheInvariant := ⟨inv_construct Config.font, inv_construct⟩

end Sys2Proof.Machine
end
